-- ==== Sys2Proof/Word.lean ====
section
/-! DEFINITION. The one word of LS8-CORE: an unsigned 8-bit byte (spec/00_scope.md R6, R7). -/

namespace Sys2Proof

/-- A register, memory cell, operand byte, `pc` or `sp`: an unsigned number in 0..255 (R7, R22). -/
abbrev Byte := BitVec 8

/-- The index of a general register R0 to R7 (spec/10_state.md R20). -/
abbrev RegIx := Fin 8

end Sys2Proof
end

