-- ==== Sys2Proof/Config.lean ====
section
/-! DEFINITION. The parameters of LS8-CORE, every one fixed by spec/00_scope.md R6. None is left open (R6) and nothing is
left to a draw (R12), so there is no free value here. -/

namespace Sys2Proof.Config

/-- MEM_SIZE: 256 cells, addresses 0..255 (R6, spec/20_memory.md R40). -/
@[simp] abbrev memSize : Nat := 256

/-- SP_RESET and the empty-stack sentinel, 0xF4 (R6, spec/10_state.md R24). -/
@[simp] abbrev spReset : Byte := 0xF4

/-- PC_RESET, the entry point (R6, spec/70_reset_and_hazards.md R150). -/
@[simp] abbrev pcReset : Byte := 0

/-- What a cell that neither the loader nor a PUSH has written holds: 0 (spec/20_memory.md R43; log 4). -/
@[simp] abbrev unlistedByte : Byte := 0

end Sys2Proof.Config
end

