-- ==== Sys2Proof/Machine/State.lean ====
section
/-! DEFINITION. The whole state of LS8-CORE (spec/10_state.md, spec/20_memory.md R40 and R52), its reset value (R32, R150),
and the reasons a step can stop. -/

namespace Sys2Proof.Machine

/-- The 256-byte memory as a list of cells: addresses strictly rising and below 256, and no cell that holds what an unlisted
address reads as (`Memory.wf` in Ops.lean). -/
abbrev Memory := List Host.Cell

/-- The three sticky flags Equal, Greater, Less (spec/10_state.md R25). -/
structure Flags where
  e : Bool
  g : Bool
  l : Bool
  deriving DecidableEq, Repr

/-- The error kinds of spec/60_exceptions.md R130. -/
inductive ErrorKind where
  | outOfBounds
  | programTooLarge
  | unsupportedOpcode
  | unsupportedOperation
  | stackUnderflow
  | divideByZero
  | badRegister
  deriving DecidableEq, Repr

/-- The run state (spec/10_state.md R27); `faulted` carries the error record of R28, whose `info` is an integer because
PUSH records the address -1 and the advance the address 256 (R130). -/
inductive RunState where
  | running
  | halted
  | faulted (kind : ErrorKind) (info : Int)
  deriving DecidableEq, Repr

/-- Everything the spec gives the machine (INVENTORY.md, `## State`). -/
structure State where
  /-- R0 to R7 (spec/10_state.md R20). -/
  regs : Vector Byte 8
  /-- The program counter (R23). -/
  pc : Byte
  /-- The dedicated stack pointer (R24). -/
  sp : Byte
  /-- E, G and L (R25). -/
  flags : Flags
  /-- The run state with its error record (R27, R28). -/
  run : RunState
  /-- The output stream, oldest byte first (spec/20_memory.md R52). -/
  out : List Byte
  /-- The memory (spec/20_memory.md R40). -/
  mem : Memory
  deriving DecidableEq, Repr

/-- The reset state of spec/10_state.md R32 and spec/70_reset_and_hazards.md R150, with the launch memory of an empty image:
nothing listed, so every cell reads 0 (R43; log 4). -/
def State.reset : State where
  regs := Vector.replicate 8 0
  pc := Config.pcReset
  sp := Config.spReset
  flags := ⟨false, false, false⟩
  run := .running
  out := []
  mem := []

/-- Why no step is taken. Both constructors are raised by `step` alone, on a state whose run has ended: "The core takes no
step when run is Halted or Faulted" (spec/70_reset_and_hazards.md R153; log 2). The error kinds of R130 are NOT here: a
fault of the core is entered as a next state (R133; log 1). -/
inductive Fault where
  /-- Raised by `step` when `run` is Halted. Safe: the machine stops where the hardware takes no step. -/
  | coreHalted
  /-- Raised by `step` when `run` is Faulted, with the record it holds. Safe, for the same reason. -/
  | coreFaulted (kind : ErrorKind) (info : Int)
  deriving DecidableEq, Repr

/-- Why an instruction has no meaning. No instruction of the table is refused. -/
inductive Refusal where
  /-- Raised by an arm of `exec` whose instruction has no meaning yet. Safe. No arm uses it. -/
  | notModelled (mnemonic : String)
  deriving DecidableEq, Repr

/-- What a step or a meaning answers. -/
abbrev Result := Host.Outcome State Fault Refusal

end Sys2Proof.Machine
end

