-- ==== Sys2Proof/Machine/Flags.lean ====
section
/-! DEFINITION. The flag computations: CMP's outcome (spec/41_alu.md R100) and the flag byte for observation
(spec/10_state.md R26). No other instruction computes a flag (R25). -/

namespace Sys2Proof.Machine

/-- The flags after comparing `x` with `y` as unsigned numbers: exactly one is set (R100, decision D21). -/
def compareFlags (x y : Byte) : Flags :=
  if x.toNat = y.toNat then ⟨true, false, false⟩
  else if x.toNat > y.toNat then ⟨false, true, false⟩
  else ⟨false, false, true⟩

/-- A flag as a one-bit number. -/
def flagBit (b : Bool) : BitVec 1 := BitVec.ofBool b

/-- `FL = 0b00000LGE`: bit 0 is E, bit 1 is G, bit 2 is L, bits 7..3 read 0 (R26, decision D19; log 13). -/
def Flags.flByte (f : Flags) : Byte := (0#5) ++ flagBit f.l ++ flagBit f.g ++ flagBit f.e

end Sys2Proof.Machine
end

