-- ==== Sys2Proof/Syntax.lean ====
section
/-! DEFINITION. The 17 instructions of spec/30_encoding.md R64, one constructor per row of spec/opcode_table.json. An
instruction carries its operand bytes as the fetch unit delivers them: whether a register operand byte names a register is
decided when the instruction executes (R62, spec/40_basic.md `checkReg`), and WellFormed.lean says when it does. -/

namespace Sys2Proof

/-- An instruction with its operand bytes: `a` is operand A (at pc+1), `b` operand B (at pc+2), R60 and R61. -/
inductive Instr where
  | hlt
  | ldi (a imm : Byte)
  | prn (a : Byte)
  | mul (a b : Byte)
  | and (a b : Byte)
  | or (a b : Byte)
  | xor (a b : Byte)
  | shl (a b : Byte)
  | shr (a b : Byte)
  | mod (a b : Byte)
  | not (a b : Byte)
  | cmp (a b : Byte)
  | push (a : Byte)
  | pop (a : Byte)
  | jmp (a : Byte)
  | jeq (a : Byte)
  | jne (a : Byte)
  deriving DecidableEq, Repr

end Sys2Proof
end

