-- ==== Sys2Proof/Decode.lean ====
section
/-! DEFINITION. Decoding and encoding, spec/30_encoding.md. The decoder looks the opcode byte up in the map of R64 and the
row alone gives the width (R65); every other byte is unsupported (R66). The opcode bytes are the spec's decision D1 (log 5). -/

namespace Sys2Proof

/-! ### The opcode bytes (R64) -/

abbrev Opcode.hlt : Byte := 0x01
abbrev Opcode.ldi : Byte := 0x82
abbrev Opcode.prn : Byte := 0x47
abbrev Opcode.mul : Byte := 0xA2
abbrev Opcode.and : Byte := 0xA8
abbrev Opcode.or : Byte := 0xAA
abbrev Opcode.xor : Byte := 0xAB
abbrev Opcode.shl : Byte := 0xAC
abbrev Opcode.shr : Byte := 0xAD
abbrev Opcode.mod : Byte := 0xA4
abbrev Opcode.not : Byte := 0x69
abbrev Opcode.cmp : Byte := 0xA7
abbrev Opcode.push : Byte := 0x45
abbrev Opcode.pop : Byte := 0x46
abbrev Opcode.jmp : Byte := 0x54
abbrev Opcode.jeq : Byte := 0x55
abbrev Opcode.jne : Byte := 0x56

/-! ### The opcode map and the decoder -/

/-- The three formats of R60, with the instruction each makes of its operand bytes. -/
inductive OperandForm where
  | f1 (i : Instr)
  | f2 (mk : Byte → Instr)
  | f3 (mk : Byte → Byte → Instr)

/-- One row of the map of R64. -/
structure OpcodeRow where
  opcode : Byte
  form : OperandForm

/-- The opcode map of R64, in the table's order. -/
def opcodeMap : List OpcodeRow :=
  [ ⟨Opcode.hlt, .f1 .hlt⟩,
    ⟨Opcode.ldi, .f3 .ldi⟩,
    ⟨Opcode.prn, .f2 .prn⟩,
    ⟨Opcode.mul, .f3 .mul⟩,
    ⟨Opcode.and, .f3 .and⟩,
    ⟨Opcode.or, .f3 .or⟩,
    ⟨Opcode.xor, .f3 .xor⟩,
    ⟨Opcode.shl, .f3 .shl⟩,
    ⟨Opcode.shr, .f3 .shr⟩,
    ⟨Opcode.mod, .f3 .mod⟩,
    ⟨Opcode.not, .f3 .not⟩,
    ⟨Opcode.cmp, .f3 .cmp⟩,
    ⟨Opcode.push, .f2 .push⟩,
    ⟨Opcode.pop, .f2 .pop⟩,
    ⟨Opcode.jmp, .f2 .jmp⟩,
    ⟨Opcode.jeq, .f2 .jeq⟩,
    ⟨Opcode.jne, .f2 .jne⟩ ]

/-- The row of an opcode byte: an exact match on all 8 bits (R64, mask 0xFF). -/
def lookupOpcode (op : Byte) : Option OpcodeRow := opcodeMap.find? (fun r => r.opcode == op)

/-- What decoding a run of bytes answers. `unsupportedOpcode` is R66; `missingByte k` says that the byte at offset `k` from
the opcode is needed and not there (spec/20_memory.md R54: it would lie above address 255). -/
inductive DecodeResult where
  | ok (i : Instr) (rest : List Byte)
  | unsupportedOpcode (op : Byte)
  | missingByte (offset : Nat)
  deriving DecidableEq, Repr

/-- Takes the operand bytes a format consumes, operand A first (R60; spec/60_exceptions.md R132 item 2). -/
def OperandForm.take : OperandForm → List Byte → DecodeResult
  | .f1 i, rest => .ok i rest
  | .f2 _, [] => .missingByte 1
  | .f2 mk, a :: rest => .ok (mk a) rest
  | .f3 _, [] => .missingByte 1
  | .f3 _, [_] => .missingByte 2
  | .f3 mk, a :: b :: rest => .ok (mk a b) rest

/-- Decodes the instruction at the front of a run of bytes and returns the bytes after it. -/
def decode : List Byte → DecodeResult
  | [] => .missingByte 0
  | op :: rest =>
    match lookupOpcode op with
    | none => .unsupportedOpcode op
    | some row => row.form.take rest

/-! ### The encoder -/

/-- The bytes of an instruction at increasing addresses: opcode, A, B (R60, spec/20_memory.md R45). -/
def encode : Instr → List Byte
  | .hlt => [Opcode.hlt]
  | .ldi a imm => [Opcode.ldi, a, imm]
  | .prn a => [Opcode.prn, a]
  | .mul a b => [Opcode.mul, a, b]
  | .and a b => [Opcode.and, a, b]
  | .or a b => [Opcode.or, a, b]
  | .xor a b => [Opcode.xor, a, b]
  | .shl a b => [Opcode.shl, a, b]
  | .shr a b => [Opcode.shr, a, b]
  | .mod a b => [Opcode.mod, a, b]
  | .not a b => [Opcode.not, a, b]
  | .cmp a b => [Opcode.cmp, a, b]
  | .push a => [Opcode.push, a]
  | .pop a => [Opcode.pop, a]
  | .jmp a => [Opcode.jmp, a]
  | .jeq a => [Opcode.jeq, a]
  | .jne a => [Opcode.jne, a]

/-- The width in bytes that the instruction's row of R64 gives. -/
def Instr.width : Instr → Nat
  | .hlt => 1
  | .prn _ | .push _ | .pop _ | .jmp _ | .jeq _ | .jne _ => 2
  | .ldi _ _ | .mul _ _ | .and _ _ | .or _ _ | .xor _ _ | .shl _ _ | .shr _ _ | .mod _ _ | .not _ _ | .cmp _ _ => 3

/-! ### Words numbered as spec/opcode_table.json numbers them -/

/-- The three bytes, lowest address first, of an instruction whose `nbits` bits are `w` (bit 0 is the least significant bit
of the first byte); the bits above `nbits` are 0. -/
def tableWordBytes (nbits w : Nat) : List Byte :=
  [ BitVec.ofNat 8 (w % 2 ^ nbits),
    BitVec.ofNat 8 (w % 2 ^ nbits / 2 ^ 8),
    BitVec.ofNat 8 (w % 2 ^ nbits / 2 ^ 16) ]

/-- The instruction the decoder reads from such a word, if any. -/
def decodeTableWord (nbits w : Nat) : Option Instr :=
  match decode (tableWordBytes nbits w) with
  | .ok i _ => some i
  | .unsupportedOpcode _ => none
  | .missingByte _ => none

end Sys2Proof
end

