-- ==== Sys2Proof/Machine/Ops.lean ====
section
/-! DEFINITION. The named operations over registers and memory, fault entry and the way out of it, the sequential advance,
and the fetch unit. Every instruction's meaning is written over these. -/

namespace Sys2Proof.Machine

/-! ### Memory (spec/20_memory.md R40 to R42) -/

/-- The canonical form: addresses strictly rising, each inside 0..255, and no cell equal to what an unlisted one reads as. -/
abbrev Memory.wf (m : Memory) : Prop :=
  m.Pairwise (fun c d => c.1 < d.1) ∧ ∀ c ∈ m, c.1 < Config.memSize ∧ c.2 ≠ Config.unlistedByte

/-- The value of the cell at an address (R42: a read changes nothing). -/
def Memory.read : Memory → Nat → Byte
  | [], _ => Config.unlistedByte
  | c :: m, a => if c.1 = a then c.2 else Memory.read m a

/-- Puts a cell before the first one of a higher address. -/
def Memory.insertCell (a : Nat) (v : Byte) : Memory → Memory
  | [] => [(a, v)]
  | c :: m => if a < c.1 then (a, v) :: c :: m else c :: Memory.insertCell a v m

/-- Sets the cell at an address and keeps the canonical form (R42: a write changes exactly the addressed cell). -/
def Memory.write (m : Memory) (a : Nat) (v : Byte) : Memory :=
  let others := m.filter (fun c => c.1 ≠ a)
  if v = Config.unlistedByte then others else Memory.insertCell a v others

/-- An address that is an access: 0..255 (R41). -/
abbrev inMemory (a : Int) : Prop := 0 ≤ a ∧ a < Config.memSize

/-! ### Registers, pc, sp, flags, out: one accessor for each -/

/-- x[r] (spec/00_scope.md R8). -/
def State.reg (s : State) (r : RegIx) : Byte := s.regs[r]

/-- x[r] <- v. No register is hard-wired (spec/10_state.md R20). -/
def State.setReg (s : State) (r : RegIx) (v : Byte) : State := { s with regs := s.regs.set r v }

/-- pc <- v. -/
def State.setPc (s : State) (v : Byte) : State := { s with pc := v }

/-- sp <- v. -/
def State.setSp (s : State) (v : Byte) : State := { s with sp := v }

/-- (E, G, L) <- f. -/
def State.setFlags (s : State) (f : Flags) : State := { s with flags := f }

/-- run <- r. -/
def State.setRun (s : State) (r : RunState) : State := { s with run := r }

/-- M <- m. -/
def State.setMem (s : State) (m : Memory) : State := { s with mem := m }

/-- Emit(v): appends a byte to `out` (spec/00_scope.md R9, spec/20_memory.md R52). -/
def State.emit (s : State) (v : Byte) : State := { s with out := s.out ++ [v] }

/-- M[a] at an address already known to be in range. -/
def State.cell (s : State) (a : Nat) : Byte := s.mem.read a

/-! ### Fault entry, and the way out (spec/60_exceptions.md R133 to R135) -/

/-- `raise K(info)`: run <- Faulted(K, info) and nothing else changes, so pc keeps the address of the instruction and what
the state already holds stays (R133; R134 and spec/70_reset_and_hazards.md R155 by where the meanings call it). -/
def raise (kind : ErrorKind) (info : Int) (s : State) : Result := .next (s.setRun (.faulted kind info))

/-- The reset input: the core state of spec/70_reset_and_hazards.md R150, memory kept, `out` empty (R151). There is no return
from a fault (R135); this is the only exit from Halted and Faulted. The host asserts it between steps only (log 17). -/
def resetInput (s : State) : State := State.reset.setMem s.mem

/-- The numeric error code of R130; 0 while no error record exists (spec/10_state.md R28; log 8). -/
def ErrorKind.code : ErrorKind → Nat
  | .outOfBounds => 1
  | .programTooLarge => 2
  | .unsupportedOpcode => 3
  | .unsupportedOperation => 4
  | .stackUnderflow => 5
  | .divideByZero => 6
  | .badRegister => 7

/-- The error code on the status port (spec/20_memory.md R53). -/
def RunState.errorCode : RunState → Nat
  | .running => 0
  | .halted => 0
  | .faulted kind _ => kind.code

/-- The error info on the status port, where there is an error record. -/
def RunState.errorInfo : RunState → Option Int
  | .running => none
  | .halted => none
  | .faulted _ info => some info

/-! ### Memory accesses of an instruction (spec/00_scope.md R9) -/

/-- `MemRead(addr, 1)`: the byte, or OutOfBounds(addr) outside 0..255. -/
def memRead (a : Int) (s : State) (k : Byte → Result) : Result :=
  if inMemory a then k (s.cell a.toNat) else raise .outOfBounds a s

/-- `MemWrite(addr, 1, v)`: sets the cell, or OutOfBounds(addr) outside 0..255. -/
def memWrite (a : Int) (v : Byte) (s : State) (k : State → Result) : Result :=
  if inMemory a then k (s.setMem (s.mem.write a.toNat v)) else raise .outOfBounds a s

/-! ### The sequential advance (spec/70_reset_and_hazards.md R154, R155) -/

/-- `advance(w)`: pc + w, not wrapped; above 255 the fault OutOfBounds(pc + w), with the instruction's writes, already in
`s`, kept (R155). -/
def advance (w : Nat) (s : State) : Result :=
  if s.pc.toNat + w < Config.memSize then .next (s.setPc (BitVec.ofNat 8 (s.pc.toNat + w)))
  else raise .outOfBounds (s.pc.toNat + w) s

/-! ### The fetch unit (spec/20_memory.md R54) -/

/-- The bytes at pc, pc+1 and pc+2 that lie in memory. An address above 255 is not read and nothing faults; which of them
are consumed is the decoder's to say. -/
def fetchBytes (s : State) : List Byte :=
  [0, 1, 2].filterMap fun k =>
    if s.pc.toNat + k < Config.memSize then some (s.cell (s.pc.toNat + k)) else none

/-- The opcode byte is not in the map (spec/30_encoding.md R66). -/
def raiseUnsupportedOpcode (op : Byte) (s : State) : Result := raise .unsupportedOpcode op.toNat s

/-- A consumed operand byte would lie at pc + k, above 255 (spec/20_memory.md R54, R41). -/
def raiseMissingByte (k : Nat) (s : State) : Result := raise .outOfBounds (s.pc.toNat + k) s

/-- Stores bytes at rising addresses from `a`; what would lie above 255 is dropped. -/
def Memory.storeFrom (m : Memory) (a : Nat) : List Byte → Memory
  | [] => m
  | b :: bs => Memory.storeFrom (if a < Config.memSize then m.write a b else m) (a + 1) bs

/-- The state with an instruction word, numbered as spec/opcode_table.json numbers it, where the next fetch reads. -/
def placeTableWord (s : State) (nbits w : Nat) : State :=
  s.setMem (s.mem.storeFrom s.pc.toNat (tableWordBytes nbits w))

end Sys2Proof.Machine
end

