-- ==== Sys2Proof/Machine/Operands.lean ====
section
/-! DEFINITION. The two operand kinds of spec/30_encoding.md R61. An immediate operand is the whole byte as it stands (R63),
so it needs no operation; a register operand byte goes through `checkReg`. -/

namespace Sys2Proof.Machine

/-- The operand byte that names a register: its index 0 to 7 (R61, R62). -/
def regByte (r : RegIx) : Byte := BitVec.ofNat 8 r.val

/-- `checkReg(b)`: the register that operand byte `b` names, or BadRegister(b) when b > 7, before any write; never the low
three bits (R62, decision D5). -/
def checkReg (b : Byte) (s : State) (k : RegIx → Result) : Result :=
  if h : b.toNat < 8 then k ⟨b.toNat, h⟩ else raise .badRegister b.toNat s

end Sys2Proof.Machine
end

