-- ==== Sys2Proof/Machine/Alu.lean ====
section
/-! DEFINITION. The ALU (spec/41_alu.md): a pure function of operation and values (R90), UnsupportedOperation outside its
set (R91), and the nine instructions over it (R92 to R100). Results are computed on numbers and reduced mod 256 (R101). -/

namespace Sys2Proof.Machine

/-! ### The operations -/

/-- The low 8 bits of the product (R92). -/
def aluMul (x y : Byte) : Byte := BitVec.ofNat 8 (x.toNat * y.toNat)

/-- Bitwise and (R93). -/
def aluAnd (x y : Byte) : Byte := x &&& y

/-- Bitwise or (R94). -/
def aluOr (x y : Byte) : Byte := x ||| y

/-- Bitwise exclusive or (R95). -/
def aluXor (x y : Byte) : Byte := x ^^^ y

/-- x * 2^n mod 256, with the whole 8-bit amount (R96, decision D7). -/
def aluShl (x n : Byte) : Byte := BitVec.ofNat 8 (x.toNat * 2 ^ n.toNat)

/-- x div 2^n, a logical shift with the whole 8-bit amount (R97, decision D7). -/
def aluShr (x n : Byte) : Byte := BitVec.ofNat 8 (x.toNat / 2 ^ n.toNat)

/-- The unsigned remainder, for a divisor that is not 0 (R98). -/
def aluMod (x y : Byte) : Byte := BitVec.ofNat 8 (x.toNat % y.toNat)

/-- 255 - y (R99). -/
def aluNot (y : Byte) : Byte := BitVec.ofNat 8 (255 - y.toNat)

/-- What the ALU answers: a new register value, a flag update, or an error (R90, R91, R98). -/
inductive AluOutcome where
  | value (v : Byte)
  | flags (f : Flags)
  | divideByZero
  | unsupportedOperation (op : Byte)
  deriving DecidableEq, Repr

/-- The ALU: operation code, first value, second value. An operation's code is its opcode byte (log 9); any code outside
the nine is UnsupportedOperation, never a value (R91). -/
def alu (op x y : Byte) : AluOutcome :=
  if op = Opcode.mul then .value (aluMul x y)
  else if op = Opcode.and then .value (aluAnd x y)
  else if op = Opcode.or then .value (aluOr x y)
  else if op = Opcode.xor then .value (aluXor x y)
  else if op = Opcode.shl then .value (aluShl x y)
  else if op = Opcode.shr then .value (aluShr x y)
  else if op = Opcode.mod then (if y = 0 then .divideByZero else .value (aluMod x y))
  else if op = Opcode.not then .value (aluNot y)
  else if op = Opcode.cmp then .flags (compareFlags x y)
  else .unsupportedOperation op

/-! ### The instructions -/

/-- What an ALU instruction does with the ALU's answer: it writes x[rA] or the flags and advances by 3 (R90, decision D2), or
raises before any write, recording rB for a zero divisor and the operation for an unknown one (spec/60_exceptions.md R130). -/
def applyAlu (ra rb : RegIx) (s : State) : AluOutcome → Result
  | .value v => advance 3 (s.setReg ra v)
  | .flags f => advance 3 (s.setFlags f)
  | .divideByZero => raise .divideByZero rb.val s
  | .unsupportedOperation op => raise .unsupportedOperation op.toNat s

/-- The shape all nine share: registers A then B checked, both read before the write (R101), then the ALU. -/
def runAlu (op a b : Byte) (s : State) : Result :=
  checkReg a s fun ra => checkReg b s fun rb => applyAlu ra rb s (alu op (s.reg ra) (s.reg rb))

/-- MUL (R92). -/
def execMul (a b : Byte) (s : State) : Result := runAlu Opcode.mul a b s

/-- AND (R93). -/
def execAnd (a b : Byte) (s : State) : Result := runAlu Opcode.and a b s

/-- OR (R94). -/
def execOr (a b : Byte) (s : State) : Result := runAlu Opcode.or a b s

/-- XOR (R95). -/
def execXor (a b : Byte) (s : State) : Result := runAlu Opcode.xor a b s

/-- SHL (R96). -/
def execShl (a b : Byte) (s : State) : Result := runAlu Opcode.shl a b s

/-- SHR (R97). -/
def execShr (a b : Byte) (s : State) : Result := runAlu Opcode.shr a b s

/-- MOD (R98). -/
def execMod (a b : Byte) (s : State) : Result := runAlu Opcode.mod a b s

/-- NOT (R99): the source is x[rB]; operand A is only the destination. -/
def execNot (a b : Byte) (s : State) : Result := runAlu Opcode.not a b s

/-- CMP (R100). -/
def execCmp (a b : Byte) (s : State) : Result := runAlu Opcode.cmp a b s

end Sys2Proof.Machine
end

