-- ==== Sys2Proof/Machine/Basic.lean ====
section
/-! DEFINITION. HLT, LDI and PRN (spec/40_basic.md R80 to R82). -/

namespace Sys2Proof.Machine

/-- HLT (R80): run <- Halted; pc + 1, but at 255 pc stays and nothing faults (decision D10). -/
def execHlt (s : State) : Result :=
  let t := s.setRun .halted
  if s.pc.toNat + 1 < Config.memSize then .next (t.setPc (BitVec.ofNat 8 (s.pc.toNat + 1))) else .next t

/-- LDI (R81): x[rA] <- opB. -/
def execLdi (a imm : Byte) (s : State) : Result :=
  checkReg a s fun ra => advance 3 (s.setReg ra imm)

/-- PRN (R82): Emit(x[rA]). -/
def execPrn (a : Byte) (s : State) : Result :=
  checkReg a s fun ra => advance 2 (s.emit (s.reg ra))

end Sys2Proof.Machine
end

