-- ==== Sys2Proof/Machine/Jumps.lean ====
section
/-! DEFINITION. JMP, JEQ and JNE (spec/43_jumps.md R120 to R123). A taken jump writes pc and no advance follows (R120). -/

namespace Sys2Proof.Machine

/-- pc <- x[r], with no advance. -/
def jumpTo (r : RegIx) (s : State) : Result := .next (s.setPc (s.reg r))

/-- JMP (R121). -/
def execJmp (a : Byte) (s : State) : Result :=
  checkReg a s fun ra => jumpTo ra s

/-- JEQ (R122): taken iff E = 1; the register is checked taken or not. -/
def execJeq (a : Byte) (s : State) : Result :=
  checkReg a s fun ra => if s.flags.e then jumpTo ra s else advance 2 s

/-- JNE (R123): taken iff E = 0; the register is checked taken or not. -/
def execJne (a : Byte) (s : State) : Result :=
  checkReg a s fun ra => if s.flags.e then advance 2 s else jumpTo ra s

end Sys2Proof.Machine
end

