-- ==== Sys2Proof/Machine/Stack.lean ====
section
/-! DEFINITION. PUSH and POP over the downward-growing stack in memory (spec/42_stack.md R110 to R112). -/

namespace Sys2Proof.Machine

/-- Where PUSH writes: sp - 1, on integers and not wrapped, so -1 when sp = 0 (R111, decision D13). -/
def pushAddress (s : State) : Int := (s.sp.toNat : Int) - 1

/-- The stack is empty: sp at or above the sentinel 0xF4 (R112, decision D12). -/
def stackEmpty (s : State) : Bool := decide (Config.spReset.toNat ≤ s.sp.toNat)

/-- PUSH (R111): M[sp - 1] <- x[rA]; sp <- sp - 1. OutOfBounds(-1) at sp = 0, before any write. -/
def execPush (a : Byte) (s : State) : Result :=
  checkReg a s fun ra =>
    memWrite (pushAddress s) (s.reg ra) s fun t =>
      advance 2 (t.setSp (BitVec.ofInt 8 (pushAddress s)))

/-- POP (R112): StackUnderflow(sp) on an empty stack; else x[rA] <- M[sp]; sp <- sp + 1. The popped cell keeps its value. -/
def execPop (a : Byte) (s : State) : Result :=
  checkReg a s fun ra =>
    if stackEmpty s then raise .stackUnderflow s.sp.toNat s
    else memRead s.sp.toNat s fun v => advance 2 ((s.setReg ra v).setSp (s.sp + 1))

end Sys2Proof.Machine
end

