-- ==== Sys2Proof/Machine/Execute.lean ====
section
/-! DEFINITION. What a Running step does with what the decoder answers (spec/70_reset_and_hazards.md R153). -/

namespace Sys2Proof.Machine

/-- Executes a decoded instruction; raises UnsupportedOpcode (spec/30_encoding.md R66) or, for a consumed operand byte above
address 255, OutOfBounds (spec/20_memory.md R54). -/
def execDecoded (s : State) : DecodeResult → Result
  | .ok i _ => exec i s
  | .unsupportedOpcode op => raiseUnsupportedOpcode op s
  | .missingByte k => raiseMissingByte k s

end Sys2Proof.Machine
end

