-- ==== Sys2Proof/Machine/Loader.lean ====
section
/-! DEFINITION. The loader, host side (spec/20_memory.md R50, R43; spec/70_reset_and_hazards.md R152). It acts before the
first step only (R158); no step of the core calls it. -/

namespace Sys2Proof.Machine

/-- What the loader answers: a launch state, or ProgramTooLarge with the sequence length and no launch state at all
(R50, spec/60_exceptions.md R142). -/
inductive LoadResult where
  | launched (s : State)
  | programTooLarge (n : Nat)
  deriving DecidableEq, Repr

/-- Writes the image from address 0 into the reset state's memory. -/
def launchState (image : List Byte) : State :=
  State.reset.setMem (State.reset.mem.storeFrom 0 image)

/-- Loads an image of at most 256 bytes. -/
def load (image : List Byte) : LoadResult :=
  if image.length ≤ Config.memSize then .launched (launchState image) else .programTooLarge image.length

end Sys2Proof.Machine
end

