-- ==== Sys2Proof/Machine/Step.lean ====
section
/-! DEFINITION. The step of spec/70_reset_and_hazards.md R153. -/

namespace Sys2Proof.Machine

/-- While Running, one step executes exactly one whole instruction: opcode lookup, consumed operand bytes, the instruction's
rule. From Halted and Faulted no step is taken (R153; log 2). -/
def step (s : State) : Host.Outcome State Fault Refusal :=
  match s.run with
  | .halted => .fault .coreHalted
  | .faulted kind info => .fault (.coreFaulted kind info)
  | .running => execDecoded s (decode (fetchBytes s))

/-- The state with an instruction word stored where `step` fetches next: at pc and the following addresses (log 3). -/
def State.withFetchWord (s : State) (nbits w : Nat) : State := placeTableWord s nbits w

end Sys2Proof.Machine
end

