-- ==== Sys2Proof/Safety.lean ====
section
/-! DEFINITION. What every state of a run satisfies, and which states a run can be in. -/

namespace Sys2Proof.Machine

/-- No two of E, G, L are set: all 0 at reset, exactly one after a CMP (spec/10_state.md R25). -/
def Flags.atMostOne (f : Flags) : Bool := !(f.e && f.g) && !(f.e && f.l) && !(f.g && f.l)

/-- The error records a step of the core can make, by spec/60_exceptions.md R130: `info` is the address 256 or -1, an opcode
byte outside the map, the sentinel 0xF4, a register index, or an operand byte above 7. ProgramTooLarge is the loader's
(R142) and UnsupportedOperation is unreachable (spec/41_alu.md R91). -/
def recordLegal : ErrorKind → Int → Bool
  | .outOfBounds, info => decide (info = 256 ∨ info = -1)
  | .programTooLarge, _ => false
  | .unsupportedOpcode, info =>
    decide (0 ≤ info ∧ info ≤ 255) && (lookupOpcode (BitVec.ofInt 8 info)).isNone
  | .unsupportedOperation, _ => false
  | .stackUnderflow, info => decide (info = 0xF4)
  | .divideByZero, info => decide (0 ≤ info ∧ info ≤ 7)
  | .badRegister, info => decide (8 ≤ info ∧ info ≤ 255)

/-- A run state is legal when its error record, if it has one, is. -/
def RunState.legal : RunState → Bool
  | .running => true
  | .halted => true
  | .faulted kind info => recordLegal kind info

/-- The invariant of the machine: memory in canonical form, sp in 0..0xF4 (spec/10_state.md R24), at most one flag set (R25),
a legal run state (R27, R28). -/
abbrev State.Inv (s : State) : Prop :=
  s.mem.wf ∧ s.sp.toNat ≤ 0xF4 ∧ s.flags.atMostOne = true ∧ s.run.legal = true

/-- The states of some run: a launch (spec/70_reset_and_hazards.md R152), a step from such a state, or the reset input after
the run has ended (R151). -/
inductive Reachable : State → Prop where
  | launched {image : List Byte} {s : State} (h : load image = .launched s) : Reachable s
  | ran {s t : State} (hs : Reachable s) (h : step s = .next t) : Reachable t
  | restarted {s : State} (hs : Reachable s) (h : s.run ≠ .running) : Reachable (resetInput s)

end Sys2Proof.Machine
end

