-- ==== Sys2Proof/WellFormed.lean ====
section
/-! DEFINITION. When an instruction's operands name registers (spec/30_encoding.md R62). An ill-formed instruction is not
rejected by the decoder: it executes and raises `BadRegister`. -/

namespace Sys2Proof

/-- A register operand byte names a register iff it is at most 7 (R62). -/
def namesRegister (b : Byte) : Bool := decide (b.toNat ≤ 7)

/-- Every register operand names a register; LDI's operand B is an immediate and may be any byte (R61, R63). -/
def Instr.wellFormed : Instr → Bool
  | .hlt => true
  | .ldi a _ => namesRegister a
  | .prn a => namesRegister a
  | .mul a b => namesRegister a && namesRegister b
  | .and a b => namesRegister a && namesRegister b
  | .or a b => namesRegister a && namesRegister b
  | .xor a b => namesRegister a && namesRegister b
  | .shl a b => namesRegister a && namesRegister b
  | .shr a b => namesRegister a && namesRegister b
  | .mod a b => namesRegister a && namesRegister b
  | .not a b => namesRegister a && namesRegister b
  | .cmp a b => namesRegister a && namesRegister b
  | .push a => namesRegister a
  | .pop a => namesRegister a
  | .jmp a => namesRegister a
  | .jeq a => namesRegister a
  | .jne a => namesRegister a

end Sys2Proof
end

