-- ==== Sys2Proof/Certificates/Slice0/Obligations.lean ====
section
/-! DEFINITION. The statements for the provers. They come from the numbered rules of spec/. "D<n>" is a decision of
spec/92_eei_decisions.md: the spec's own choice, so a statement that rests on one is marked derived in OBLIGATIONS.json and
its docstring names the decision. "log <n>" is notes/assumptions/<n>.md. -/

namespace Sys2Proof.Claims

open Sys2Proof.Machine

/-! ### Words the statements share -/

/-- The opcode bytes of spec/30_encoding.md R64 by width, written out from the table. -/
def opcodesOfWidth1 : List Byte := [0x01]
def opcodesOfWidth2 : List Byte := [0x47, 0x45, 0x46, 0x54, 0x55, 0x56]
def opcodesOfWidth3 : List Byte := [0x82, 0xA2, 0xA8, 0xAA, 0xAB, 0xAC, 0xAD, 0xA4, 0x69, 0xA7]

/-- All 17 opcode bytes of R64. -/
def opcodes : List Byte := opcodesOfWidth1 ++ opcodesOfWidth2 ++ opcodesOfWidth3

/-- The nine operations of the ALU (spec/41_alu.md R91), by their opcode bytes. -/
def aluOperations : List Byte := [0xA2, 0xA8, 0xAA, 0xAB, 0xAC, 0xAD, 0xA4, 0x69, 0xA7]

/-- `exec i s` completes: with `t` the state after the instruction's own writes, it answers `t` with pc moved on by the width
`w` where that stays inside memory, and past the top of memory `t` with the fault OutOfBounds(pc + w) and pc kept
(spec/70_reset_and_hazards.md R154, R155). A step reaches the second case with pc + w = 256 only (R155; log 11). -/
def WritesThenAdvances (w : Nat) (i : Instr) (s t : State) : Prop :=
  (s.pc.toNat + w ≤ 255 → exec i s = .next { t with pc := BitVec.ofNat 8 (s.pc.toNat + w) }) ∧
  (256 ≤ s.pc.toNat + w → exec i s = .next { t with run := .faulted .outOfBounds (s.pc.toNat + w) })

/-- A one-register instruction whose operand byte is above 7 raises BadRegister with that byte and writes nothing. -/
def BadRegisterFaults (mk : Byte → Instr) : Prop :=
  ∀ (s : State) (a : Byte), 7 < a.toNat → exec (mk a) s = .next { s with run := .faulted .badRegister a.toNat }

/-- A two-register instruction raises BadRegister on operand A whatever B is, and on operand B when A names a register. -/
def BadRegistersFault (mk : Byte → Byte → Instr) : Prop :=
  ∀ (s : State) (a b : Byte),
    (7 < a.toNat → exec (mk a b) s = .next { s with run := .faulted .badRegister a.toNat }) ∧
    (a.toNat ≤ 7 → 7 < b.toNat → exec (mk a b) s = .next { s with run := .faulted .badRegister b.toNat })

/-- With this opcode byte at pc and a consumed operand byte above address 255, the step raises OutOfBounds(256) and writes
nothing, whatever the operand bytes that do exist are. -/
def OperandAboveMemoryFaults (opcode : Byte) (w : Nat) : Prop :=
  ∀ s : State, s.run = .running → s.mem.read s.pc.toNat = opcode → 256 < s.pc.toNat + w →
    step s = .next { s with run := .faulted .outOfBounds 256 }

/-- A register-writing ALU instruction: the value is `value (x[rA]) (x[rB])`, both read before the write. -/
def AluWrites (opcode : Byte) (mk : Byte → Byte → Instr) (value : Byte → Byte → Byte) : Prop :=
  (∀ (s : State) (ra rb : RegIx),
    WritesThenAdvances 3 (mk (regByte ra) (regByte rb)) s (s.setReg ra (value (s.reg ra) (s.reg rb)))) ∧
  BadRegistersFault mk ∧ OperandAboveMemoryFaults opcode 3

/-- The same, with the value given bit by bit. -/
def AluWritesBits (opcode : Byte) (mk : Byte → Byte → Instr) (bit : Bool → Bool → Bool) : Prop :=
  (∀ (s : State) (ra rb : RegIx) (v : Byte),
    (∀ k < 8, v.getLsbD k = bit ((s.reg ra).getLsbD k) ((s.reg rb).getLsbD k)) →
    WritesThenAdvances 3 (mk (regByte ra) (regByte rb)) s (s.setReg ra v)) ∧
  BadRegistersFault mk ∧ OperandAboveMemoryFaults opcode 3

/-- A run of bytes as one number, the first byte least significant: how spec/opcode_table.json numbers an instruction's bits. -/
def wordOf : List Byte → Nat
  | [] => 0
  | b :: bs => b.toNat + 256 * wordOf bs

/-- The bytes of `i` stand in memory from pc on, all inside memory. -/
def InstructionAtPc (s : State) (i : Instr) : Prop :=
  s.pc.toNat + i.width ≤ 256 ∧ ∀ k < i.width, (encode i)[k]? = some (s.mem.read (s.pc.toNat + k))

/-- The state with its G and L flags replaced. -/
def withGreaterLess (s : State) (g l : Bool) : State := { s with flags := ⟨s.flags.e, g, l⟩ }

end Sys2Proof.Claims

section
open Sys2Proof Sys2Proof.Machine Sys2Proof.Claims

/-! ### Reset, encoding, the step -/

/-- R150 ("Reset state"): R0 to R7 = 0, pc = 0, sp = 0xF4, E = G = L = 0, run = Running, no error record. (`out` and memory at
reset stand in LaunchHoldsTheImage.) -/
def Obligations.ResetGivesSpecValues : Prop :=
  (∀ r, State.reset.reg r = 0) ∧ State.reset.pc = 0 ∧ State.reset.sp = 0xF4 ∧
  State.reset.flags.e = false ∧ State.reset.flags.g = false ∧ State.reset.flags.l = false ∧
  State.reset.run = .running ∧ State.reset.run.errorInfo = none

/-- The 17 rows of spec/30_encoding.md R64 as written there, operand A before operand B. The byte values are decision D1
(log 5). -/
def Obligations.OpcodeBytesDecodeAsTabled : Prop :=
  ∀ (a b : Byte) (rest : List Byte),
    decode (0x01 :: rest) = .ok .hlt rest ∧
    decode (0x82 :: a :: b :: rest) = .ok (.ldi a b) rest ∧
    decode (0x47 :: a :: rest) = .ok (.prn a) rest ∧
    decode (0xA2 :: a :: b :: rest) = .ok (.mul a b) rest ∧
    decode (0xA8 :: a :: b :: rest) = .ok (.and a b) rest ∧
    decode (0xAA :: a :: b :: rest) = .ok (.or a b) rest ∧
    decode (0xAB :: a :: b :: rest) = .ok (.xor a b) rest ∧
    decode (0xAC :: a :: b :: rest) = .ok (.shl a b) rest ∧
    decode (0xAD :: a :: b :: rest) = .ok (.shr a b) rest ∧
    decode (0xA4 :: a :: b :: rest) = .ok (.mod a b) rest ∧
    decode (0x69 :: a :: b :: rest) = .ok (.not a b) rest ∧
    decode (0xA7 :: a :: b :: rest) = .ok (.cmp a b) rest ∧
    decode (0x45 :: a :: rest) = .ok (.push a) rest ∧
    decode (0x46 :: a :: rest) = .ok (.pop a) rest ∧
    decode (0x54 :: a :: rest) = .ok (.jmp a) rest ∧
    decode (0x55 :: a :: rest) = .ok (.jeq a) rest ∧
    decode (0x56 :: a :: rest) = .ok (.jne a) rest

/-- Decode and encode agree, for every instruction, well-formed or not, and whatever bytes follow: a run of bytes decodes to
`i` and a rest exactly when it is the encoding of `i` followed by that rest. So no bit of an encoding is dropped, bytes beyond
the width never matter, and no run of bytes has two meanings (spec/30_encoding.md R60, R65). -/
def Obligations.DecodeAndEncodeAgree : Prop :=
  ∀ (bytes rest : List Byte) (i : Instr), decode bytes = .ok i rest ↔ bytes = encode i ++ rest

/-- What the decoder rejects, by name: exactly the runs of bytes whose opcode is outside the 17 (R66), and exactly those that
end before the operand bytes their opcode's width needs, with the offset of the first one missing (R60, R65; the bytes by
D1, log 5). -/
def Obligations.DecodeRejectsExactlyTheRest : Prop :=
  ∀ bytes : List Byte,
    (∀ op, decode bytes = .unsupportedOpcode op ↔ bytes.head? = some op ∧ op ∉ opcodes) ∧
    (∀ k, decode bytes = .missingByte k ↔ bytes.length = k ∧
      (k = 0 ∨ (k = 1 ∧ ∃ op ∈ opcodesOfWidth2 ++ opcodesOfWidth3, bytes.head? = some op) ∨
        (k = 2 ∧ ∃ op ∈ opcodesOfWidth3, bytes.head? = some op)))

/-- The words of spec/opcode_table.json: the decoder reads from an instruction's word that instruction, and a Running state
with that word placed at its pc steps by executing it (log 3). -/
def Obligations.TableWordsDecodeAndRun : Prop :=
  ∀ i : Instr,
    decodeTableWord (8 * i.width) (wordOf (encode i)) = some i ∧
    ∀ s : State, s.run = .running → s.pc.toNat + i.width ≤ 256 →
      step (s.withFetchWord (8 * i.width) (wordOf (encode i))) =
        exec i (s.withFetchWord (8 * i.width) (wordOf (encode i)))

/-- A step runs the decoded instruction (spec/70_reset_and_hazards.md R153): with the bytes of `i` at pc, or with `i` decoded
from what the fetch unit delivers, the step of a Running state is `exec i` of that same state; nothing is added around it. -/
def Obligations.StepRunsTheFetchedInstruction : Prop :=
  ∀ (s : State) (i : Instr), s.run = .running →
    (InstructionAtPc s i → step s = exec i s) ∧
    (∀ rest, decode (fetchBytes s) = .ok i rest → step s = exec i s)

/-- A Running core takes its next step: it is never stuck and never refused (R163, R153), because an error is entered as a
next state (log 1). -/
def Obligations.RunningCoreAlwaysSteps : Prop :=
  ∀ s : State, s.run = .running → ∃ t, step s = .next t

/-- No step is taken from Halted or Faulted (R153, spec/10_state.md R27); the model answers a fault that names which of the two
it is (log 2). -/
def Obligations.HaltedAndFaultedTakeNoStep : Prop :=
  ∀ s : State, (s.run = .halted → step s = .fault .coreHalted) ∧
    (∀ kind info, s.run = .faulted kind info → step s = .fault (.coreFaulted kind info))

/-- The reset input (R151, decision D23): the core state of R150, memory unchanged, `out` empty; it leaves Halted and Faulted,
since the state it gives steps again. -/
def Obligations.ResetInputRestartsTheCore : Prop :=
  ∀ s : State,
    (resetInput s).mem = s.mem ∧ (∀ r, (resetInput s).reg r = 0) ∧ (resetInput s).pc = 0 ∧ (resetInput s).sp = 0xF4 ∧
    (resetInput s).flags = ⟨false, false, false⟩ ∧ (resetInput s).run = .running ∧ (resetInput s).out = [] ∧
    ∃ t, step (resetInput s) = .next t

/-- R66: every opcode byte not in R64 is illegal, 239 of the 256 values, 0x00 among them; decoding one raises
UnsupportedOpcode(opcode) and nothing is written, wherever it stands and whatever follows it. No encoding of the 17 is
reserved: with any operand bytes it decodes, and only a register operand above 7 raises BadRegister. Derived: that the 17 bytes
are these is decision D1 (log 5, presumed), and that 0x00 is among the illegal ones is R66's own inference from R64. -/
def Obligations.UnsupportedOpcodeFaults : Prop :=
  (∀ s : State, s.run = .running → s.mem.read s.pc.toNat ∉ opcodes →
    step s = .next { s with run := .faulted .unsupportedOpcode (s.mem.read s.pc.toNat).toNat }) ∧
  (0 : Byte) ∉ opcodes ∧
  ((List.range 256).filter (fun n => !opcodes.contains (BitVec.ofNat 8 n))).length = 239 ∧
  (∀ op ∈ opcodes, ∀ a b, ∃ i rest, decode [op, a, b] = .ok i rest) ∧
  (∀ (i : Instr) (s t : State) (info : Int), i.wellFormed = true → s.run = .running → exec i s = .next t →
    t.run ≠ .faulted .badRegister info)

/-! ### Halt, load immediate, print -/

/-- HLT (spec/40_basic.md R80): run <- Halted and pc + 1, or pc kept at 255 with no fault (decision D10), also when the step
fetches it there; nothing else changes. -/
def Obligations.HltHalts : Prop :=
  ∀ s : State,
    (s.pc.toNat ≤ 254 → exec .hlt s = .next { s with run := .halted, pc := BitVec.ofNat 8 (s.pc.toNat + 1) }) ∧
    (s.pc.toNat = 255 → exec .hlt s = .next { s with run := .halted }) ∧
    (s.run = .running → s.mem.read s.pc.toNat = 0x01 → step s = exec .hlt s)

/-- LDI (R81): x[rA] <- opB for every immediate byte, advance 3, its three faults. Derived: what exec answers at pc 254 and 255,
where no step executes LDI, is the model's reading of R154 (log 11), not R81's. -/
def Obligations.LdiLoadsImmediate : Prop :=
  (∀ (s : State) (ra : RegIx) (imm : Byte), WritesThenAdvances 3 (.ldi (regByte ra) imm) s (s.setReg ra imm)) ∧
  (∀ imm, BadRegisterFaults (fun a => .ldi a imm)) ∧ OperandAboveMemoryFaults 0x82 3

/-- PRN (R82): one byte, x[rA], is appended to `out`; no register, sp, flag or memory changes; its three faults. Derived: what
exec answers at pc 255, where no step executes PRN, is the model's reading of R154 (log 11), not R82's. -/
def Obligations.PrnEmits : Prop :=
  (∀ (s : State) (ra : RegIx), WritesThenAdvances 2 (.prn (regByte ra)) s { s with out := s.out ++ [s.reg ra] }) ∧
  BadRegisterFaults .prn ∧ OperandAboveMemoryFaults 0x47 2

/-! ### ALU -/

/-- MUL (spec/41_alu.md R92): x[rA] <- (x[rA] * x[rB]) mod 256; the result does not depend on the order of the factors.
Derived: the order is stated of the ALU under its operation code 0xA2, which is the model's choice (log 9), and what exec
answers at pc 254 and 255, where no step executes MUL, is the model's reading of R154 (log 11). -/
def Obligations.MulWritesProductModulo256 : Prop :=
  AluWrites 0xA2 .mul (fun x y => BitVec.ofNat 8 (x.toNat * y.toNat % 256)) ∧
  ∀ x y, alu 0xA2 x y = alu 0xA2 y x

/-- AND, OR, XOR (R93 to R95): bit by bit. That the result is stored is decision D2 (log 6). At pc 254 and 255: log 11. -/
def Obligations.AndOrXorWriteBitwiseResults : Prop :=
  AluWritesBits 0xA8 .and (fun x y => x && y) ∧
  AluWritesBits 0xAA .or (fun x y => x || y) ∧
  AluWritesBits 0xAB .xor (fun x y => x != y)

/-- SHL and SHR (R96, R97): by the whole 8-bit amount (decision D7, log 7), 0 from an amount of 8 on, logical to the right.
Stored by decision D2 (log 6). At pc 254 and 255: log 11. -/
def Obligations.ShiftsUseTheWholeAmount : Prop :=
  AluWrites 0xAC .shl (fun x n => if 8 ≤ n.toNat then 0 else BitVec.ofNat 8 (x.toNat * 2 ^ n.toNat % 256)) ∧
  AluWrites 0xAD .shr (fun x n => if 8 ≤ n.toNat then 0 else BitVec.ofNat 8 (x.toNat / 2 ^ n.toNat))

/-- MOD (R98): the unsigned remainder for a divisor that is not 0, and DivideByZero(rB) before any write for 0, also where the
advance would fault (decision D6, log 19). Stored by decision D2 (log 6). At pc 254 and 255: log 11. -/
def Obligations.ModWritesRemainderOrFaults : Prop :=
  (∀ (s : State) (ra rb : RegIx), (s.reg rb).toNat ≠ 0 →
    WritesThenAdvances 3 (.mod (regByte ra) (regByte rb)) s
      (s.setReg ra (BitVec.ofNat 8 ((s.reg ra).toNat % (s.reg rb).toNat)))) ∧
  (∀ (s : State) (ra rb : RegIx), (s.reg rb).toNat = 0 →
    exec (.mod (regByte ra) (regByte rb)) s = .next { s with run := .faulted .divideByZero rb.val }) ∧
  BadRegistersFault .mod ∧ OperandAboveMemoryFaults 0xA4 3

/-- NOT (R99): every bit of x[rB] inverted into x[rA]; the old x[rA] is not read. Stored by decision D2 (log 6). At pc 254
and 255: log 11. -/
def Obligations.NotWritesComplement : Prop :=
  AluWritesBits 0x69 .not (fun _ y => !y)

/-- CMP (R100): exactly one flag, by the unsigned order (decision D21, log 21); the other two are cleared; no register. At pc
254 and 255: log 11. -/
def Obligations.CmpSetsExactlyOneFlag : Prop :=
  (∀ (s : State) (ra rb : RegIx),
    ((s.reg ra).toNat = (s.reg rb).toNat →
      WritesThenAdvances 3 (.cmp (regByte ra) (regByte rb)) s { s with flags := ⟨true, false, false⟩ }) ∧
    ((s.reg rb).toNat < (s.reg ra).toNat →
      WritesThenAdvances 3 (.cmp (regByte ra) (regByte rb)) s { s with flags := ⟨false, true, false⟩ }) ∧
    ((s.reg ra).toNat < (s.reg rb).toNat →
      WritesThenAdvances 3 (.cmp (regByte ra) (regByte rb)) s { s with flags := ⟨false, false, true⟩ })) ∧
  BadRegistersFault .cmp ∧ OperandAboveMemoryFaults 0xA7 3

/-- The ALU raises UnsupportedOperation for any operation outside its nine, never a value; an instruction over such an
operation would enter that fault with nothing written; and no step of any state enters it (R91; the operation code is the
opcode byte, log 9). -/
def Obligations.UnsupportedOperationOutsideTheAluSet : Prop :=
  (∀ op x y, op ∉ aluOperations → alu op x y = .unsupportedOperation op) ∧
  (∀ op x y code, op ∈ aluOperations → alu op x y ≠ .unsupportedOperation code) ∧
  (∀ op (ra rb : RegIx) (s : State), op ∉ aluOperations →
    runAlu op (regByte ra) (regByte rb) s = .next { s with run := .faulted .unsupportedOperation op.toNat }) ∧
  (∀ s t : State, step s = .next t → ∀ info, t.run ≠ .faulted .unsupportedOperation info)

/-! ### Stack -/

/-- PUSH (spec/42_stack.md R111): with 1 <= sp, M[sp - 1] <- x[rA] and sp <- sp - 1; at sp = 0 the fault OutOfBounds(-1) with
nothing written (decision D13, log 20). At pc 255: log 11. -/
def Obligations.PushStoresBelowSp : Prop :=
  (∀ (s : State) (ra : RegIx), 1 ≤ s.sp.toNat →
    WritesThenAdvances 2 (.push (regByte ra)) s
      { s with mem := s.mem.write (s.sp.toNat - 1) (s.reg ra), sp := BitVec.ofNat 8 (s.sp.toNat - 1) }) ∧
  (∀ (s : State) (ra : RegIx), s.sp.toNat = 0 →
    exec (.push (regByte ra)) s = .next { s with run := .faulted .outOfBounds (-1) }) ∧
  BadRegisterFaults .push ∧ OperandAboveMemoryFaults 0x45 2

/-- POP (R112): below the sentinel 0xF4, x[rA] <- M[sp] and sp <- sp + 1 with memory unchanged; from 0xF4 on the fault
StackUnderflow(sp) with nothing written (above 0xF4 by decision D12, log 14). At pc 255: log 11. -/
def Obligations.PopLoadsAtSp : Prop :=
  (∀ (s : State) (ra : RegIx), s.sp.toNat < 0xF4 →
    WritesThenAdvances 2 (.pop (regByte ra)) s
      { s.setReg ra (s.mem.read s.sp.toNat) with sp := BitVec.ofNat 8 (s.sp.toNat + 1) }) ∧
  (∀ (s : State) (ra : RegIx), 0xF4 ≤ s.sp.toNat →
    exec (.pop (regByte ra)) s = .next { s with run := .faulted .stackUnderflow s.sp.toNat }) ∧
  BadRegisterFaults .pop ∧ OperandAboveMemoryFaults 0x46 2

/-- "PUSH then POP into a different register round-trips the value" (R112): the popped register holds the pushed one's value, sp
is back, every other register is as before, and the popped cell keeps the value (spec/90_conflicts.md C3). -/
def Obligations.PushThenPopRoundTrips : Prop :=
  ∀ (s : State) (ra rb : RegIx), 1 ≤ s.sp.toNat → s.sp.toNat ≤ 0xF4 → s.pc.toNat ≤ 251 →
    ∃ t u, exec (.push (regByte ra)) s = .next t ∧ exec (.pop (regByte rb)) t = .next u ∧
      u.reg rb = s.reg ra ∧ (∀ r, r ≠ rb → u.reg r = s.reg r) ∧ u.sp = s.sp ∧ u.run = s.run ∧
      u.mem.read (s.sp.toNat - 1) = s.reg ra

/-- A pushed byte is what the next fetch delivers from its address, with nothing in between (spec/20_memory.md R51). -/
def Obligations.PushedByteIsFetchedNext : Prop :=
  ∀ (s t : State) (ra : RegIx) (k : Nat), exec (.push (regByte ra)) s = .next t → 1 ≤ s.sp.toNat → k < 3 →
    t.pc.toNat + k = s.sp.toNat - 1 → (fetchBytes t)[k]? = some (s.reg ra)

/-! ### Jumps -/

/-- JMP (spec/43_jumps.md R121): pc <- x[rA], from any pc, with no advance; its two faults. Derived: the byte 0x54 is decision D1
(log 5) and BadRegister is decision D5 (log 12). -/
def Obligations.JmpSetsPc : Prop :=
  (∀ (s : State) (ra : RegIx), exec (.jmp (regByte ra)) s = .next { s with pc := s.reg ra }) ∧
  BadRegisterFaults .jmp ∧ OperandAboveMemoryFaults 0x54 2

/-- JEQ (R122): taken iff E = 1, and then with no advance; the register is checked taken or not (decision D5, log 12).
After reset E = 0. At pc 255: log 11. -/
def Obligations.JeqJumpsOnEqual : Prop :=
  (∀ (s : State) (ra : RegIx), s.flags.e = true → exec (.jeq (regByte ra)) s = .next { s with pc := s.reg ra }) ∧
  (∀ (s : State) (ra : RegIx), s.flags.e = false → WritesThenAdvances 2 (.jeq (regByte ra)) s s) ∧
  BadRegisterFaults .jeq ∧ OperandAboveMemoryFaults 0x55 2 ∧ State.reset.flags.e = false

/-- JNE (R123): taken iff E = 0, and then with no advance; the register is checked taken or not (decision D5, log 12).
After reset E = 0. At pc 255: log 11. -/
def Obligations.JneJumpsOnNotEqual : Prop :=
  (∀ (s : State) (ra : RegIx), s.flags.e = false → exec (.jne (regByte ra)) s = .next { s with pc := s.reg ra }) ∧
  (∀ (s : State) (ra : RegIx), s.flags.e = true → WritesThenAdvances 2 (.jne (regByte ra)) s s) ∧
  BadRegisterFaults .jne ∧ OperandAboveMemoryFaults 0x56 2 ∧ State.reset.flags.e = false

/-! ### Frames -/

/-- LDI and the eight register-writing ALU instructions (spec/10_state.md R21): every register but the one operand A names,
sp, the flags, `out` and every byte of memory are unchanged, also when the instruction faults. -/
def Obligations.RegisterWritersFrame : Prop :=
  ∀ (a b : Byte) (s t : State) (i : Instr),
    i ∈ [.ldi a b, .mul a b, .and a b, .or a b, .xor a b, .shl a b, .shr a b, .mod a b, .not a b] →
    exec i s = .next t →
    (∀ r, regByte r ≠ a → t.reg r = s.reg r) ∧ t.sp = s.sp ∧ t.flags = s.flags ∧ t.out = s.out ∧
    ∀ x, t.mem.read x = s.mem.read x

/-- HLT, PRN, CMP, JMP, JEQ, JNE (R21): no register, not sp, no byte of memory; the flags only by CMP (R25) and `out` only by
PRN, also when the instruction faults. -/
def Obligations.NonWritersFrame : Prop :=
  ∀ (a b : Byte) (s t : State) (i : Instr),
    i ∈ [.hlt, .prn a, .cmp a b, .jmp a, .jeq a, .jne a] → exec i s = .next t →
    (∀ r, t.reg r = s.reg r) ∧ t.sp = s.sp ∧ (i ≠ .cmp a b → t.flags = s.flags) ∧
    (i ≠ .prn a → t.out = s.out) ∧ ∀ x, t.mem.read x = s.mem.read x

/-- PUSH (R21, R111): no register, no flag, not `out`, and no byte of memory but the one at the address it computes,
`pushAddress`. sp changes by at most that decrement. -/
def Obligations.PushFrame : Prop :=
  ∀ (a : Byte) (s t : State), exec (.push a) s = .next t →
    (∀ r, t.reg r = s.reg r) ∧ t.flags = s.flags ∧ t.out = s.out ∧
    (t.sp = s.sp ∨ (t.sp.toNat : Int) = pushAddress s) ∧
    ∀ x : Nat, (x : Int) ≠ pushAddress s → t.mem.read x = s.mem.read x

/-- POP (R21, R112): no register but the one operand A names, no flag, not `out`, no byte of memory. sp changes by at most that
increment. -/
def Obligations.PopFrame : Prop :=
  ∀ (a : Byte) (s t : State), exec (.pop a) s = .next t →
    (∀ r, regByte r ≠ a → t.reg r = s.reg r) ∧ t.flags = s.flags ∧ t.out = s.out ∧
    (t.sp = s.sp ∨ t.sp.toNat = s.sp.toNat + 1) ∧ ∀ x, t.mem.read x = s.mem.read x

/-! ### Whole-machine rules -/

/-- Only PUSH writes memory (spec/20_memory.md R40), and only the cell at sp - 1. -/
def Obligations.MemoryChangesOnlyByPush : Prop :=
  ∀ (s t : State) (x : Nat), step s = .next t → t.mem.read x ≠ s.mem.read x →
    s.mem.read s.pc.toNat = 0x45 ∧ (x : Int) = (s.sp.toNat : Int) - 1

/-- The flags hold the outcome of the last CMP until the next CMP, whatever runs in between; before any CMP, E = 0, so JEQ falls
through and JNE jumps (spec/70_reset_and_hazards.md R160, spec/10_state.md R25). Derived: that CMP's opcode byte is 0xA7 is
decision D1 (log 5), and that a CMP writes its outcome is R100's, said in CmpSetsExactlyOneFlag. JEQ and JNE at pc 254 and 255
are said in JeqJumpsOnEqual and JneJumpsOnNotEqual. -/
def Obligations.FlagsChangeOnlyByCmp : Prop :=
  (∀ s t : State, step s = .next t → s.mem.read s.pc.toNat ≠ 0xA7 → t.flags = s.flags) ∧
  (∀ image s, load image = .launched s → s.flags.e = false) ∧
  (∀ (s : State) (ra : RegIx), s.flags.e = false → s.pc.toNat + 2 ≤ 255 →
    exec (.jeq (regByte ra)) s = .next { s with pc := BitVec.ofNat 8 (s.pc.toNat + 2) } ∧
    exec (.jne (regByte ra)) s = .next { s with pc := s.reg ra })

/-- Only PUSH and POP write sp, by one down and one up, without wrapping (spec/10_state.md R24). -/
def Obligations.StackPointerChangesOnlyByPushPop : Prop :=
  ∀ s t : State, step s = .next t → t.sp ≠ s.sp →
    (s.mem.read s.pc.toNat = 0x45 ∧ t.sp.toNat + 1 = s.sp.toNat) ∨
    (s.mem.read s.pc.toNat = 0x46 ∧ t.sp.toNat = s.sp.toNat + 1)

/-- The output only grows, by one byte a step, and only by PRN (spec/20_memory.md R52, decision D18, log 15). -/
def Obligations.OutputGrowsOnlyByPrn : Prop :=
  ∀ s t : State, step s = .next t →
    t.out = s.out ∨ (s.mem.read s.pc.toNat = 0x47 ∧ ∃ r, t.out = s.out ++ [s.reg r])

/-- A step enters Halted exactly when it executes HLT (spec/60_exceptions.md R136, R141). -/
def Obligations.HaltOnlyByHlt : Prop :=
  ∀ s t : State, step s = .next t → (t.run = .halted ↔ s.mem.read s.pc.toNat = 0x01)

/-- Fault entry (R133): raising K with info I sets run to Faulted(K, I) and nothing else; whatever step enters a fault, pc keeps
the address of the faulting instruction's opcode, the host reads the record, and the core takes no further step. Derived: that
a step asked for then answers the fault coreFaulted is the model's choice (log 2), and the code on the status port is decision
D4 (log 8). -/
def Obligations.FaultEntryKeepsPcAndEndsTheRun : Prop :=
  (∀ (s : State) kind info, raise kind info s = .next { s with run := .faulted kind info }) ∧
  ∀ (s t : State) kind info, step s = .next t → t.run = .faulted kind info →
    t.pc = s.pc ∧ t.run.errorCode = kind.code ∧ t.run.errorInfo = some info ∧
    step t = .fault (.coreFaulted kind info)

/-- Faults are precise (R134, decision D8, log 22): a fault leaves the state as it was but for the run state, except the advance
fault of an instruction that ends at address 255. -/
def Obligations.FaultsBeforeTheWritesArePrecise : Prop :=
  ∀ (s t : State) kind info, step s = .next t → t.run = .faulted kind info →
    t = { s with run := .faulted kind info } ∨
    (kind = .outOfBounds ∧ info = 256 ∧
      ∃ i rest, decode (fetchBytes s) = .ok i rest ∧ s.pc.toNat + i.width = 256)

/-- Which instruction can raise which fault once it is fetched (R131): BadRegister every one but HLT, OutOfBounds every one but
HLT and JMP, StackUnderflow POP alone, DivideByZero MOD alone, the others none. -/
def Obligations.FaultKindsByInstruction : Prop :=
  ∀ (i : Instr) (s t : State) kind info, s.run = .running → exec i s = .next t → t.run = .faulted kind info →
    (kind = .badRegister ∧ i ≠ .hlt) ∨
    (kind = .outOfBounds ∧ i ≠ .hlt ∧ ∀ a, i ≠ .jmp a) ∨
    (kind = .stackUnderflow ∧ ∃ a, i = .pop a) ∨
    (kind = .divideByZero ∧ ∃ a b, i = .mod a b)

/-- No instruction reads G or L (spec/10_state.md R25): with any other values there, the step gives the same state but for G
and L. -/
def Obligations.GreaterAndLessAreNeverRead : Prop :=
  ∀ (s t : State) (g l : Bool), step s = .next t →
    ∃ t', step (withGreaterLess s g l) = .next t' ∧ withGreaterLess t' false false = withGreaterLess t false false

/-- The output is never read back (spec/20_memory.md R52): after any other output the step does the same, appending the same
bytes. -/
def Obligations.OutputIsNeverReadBack : Prop :=
  ∀ (s t : State) (o : List Byte), step s = .next t →
    step { s with out := o } = .next { t with out := o ++ t.out.drop s.out.length }

/-- An instruction reads no memory but its own bytes and, for POP, the cell at sp (R40, R54): changing any other cell changes
nothing of what the step does elsewhere. -/
def Obligations.OnlyOwnBytesAndPoppedCellAreRead : Prop :=
  ∀ (s t : State) (i : Instr) (x : Nat) (v : Byte), InstructionAtPc s i → step s = .next t →
    (x < s.pc.toNat ∨ s.pc.toNat + i.width ≤ x) → (∀ a, i = .pop a → x ≠ s.sp.toNat) →
    ∃ t', step { s with mem := s.mem.write x v } = .next t' ∧
      (∀ r, t'.reg r = t.reg r) ∧ t'.pc = t.pc ∧ t'.sp = t.sp ∧ t'.flags = t.flags ∧ t'.run = t.run ∧ t'.out = t.out ∧
      ∀ y, y ≠ x → t'.mem.read y = t.mem.read y

/-- Addresses 0xF4 to 0xFF are never written by the core in a run from reset (R47): said of every state whose sp is at most
0xF4, an invariant (StepKeepsInvariant). -/
def Obligations.HighMemoryIsNeverWritten : Prop :=
  ∀ (s t : State) (x : Nat), s.sp.toNat ≤ 0xF4 → step s = .next t → 0xF4 ≤ x → t.mem.read x = s.mem.read x

/-! ### The invariant -/

/-- The invariant holds at reset. -/
def Obligations.InvariantHoldsAtReset : Prop := State.reset.Inv

/-- From every state that meets the invariant, a step gives one that does: memory canonical, sp in 0..0xF4 (R24), at most one
flag (R25), an error record only of the kinds and infos R130 allows the core. -/
def Obligations.StepKeepsInvariant : Prop :=
  ∀ s t : State, s.Inv → step s = .next t → t.Inv

/-- Every state of every run, from any image of at most 256 bytes and across resets, meets the invariant. -/
def Obligations.ReachableStatesMeetInvariant : Prop :=
  ∀ s : State, Reachable s → s.Inv

/-! ### The loader and the views -/

/-- A launch (spec/70_reset_and_hazards.md R152): the reset state with the image from address 0 and 0 above it, `out` empty, and
nothing else. Derived: that the launch of no bytes is `State.reset` itself is the model's choice of the memory in its reset
state (log 4), not R152's. -/
def Obligations.LaunchHoldsTheImage : Prop :=
  (∀ image : List Byte, image.length ≤ 256 →
    ∃ s, load image = .launched s ∧ { s with mem := State.reset.mem } = State.reset ∧ s.out = [] ∧
      (∀ a (h : a < image.length), s.mem.read a = image[a]) ∧ ∀ a, image.length ≤ a → s.mem.read a = 0) ∧
  load [] = .launched State.reset

/-- More than 256 bytes: ProgramTooLarge with the length, and no launch state (spec/20_memory.md R50, decision D24). -/
def Obligations.OversizedImageIsNotLoaded : Prop :=
  ∀ image : List Byte, 256 < image.length →
    load image = .programTooLarge image.length ∧ ∀ s, load image ≠ .launched s

/-- Two memories in canonical form that read alike are the same list: equal memories are equal data (a property of the model's
representation, not a rule of the spec). -/
def Obligations.CanonicalMemoriesWithEqualReadsAreEqual : Prop :=
  ∀ m n : Memory, m.wf → n.wf → (∀ a < 256, m.read a = n.read a) → m = n

/-- FL = 0b00000LGE (spec/10_state.md R26, decision D19, log 13). -/
def Obligations.FlagByteLayout : Prop :=
  ∀ f : Flags, f.flByte.getLsbD 0 = f.e ∧ f.flByte.getLsbD 1 = f.g ∧ f.flByte.getLsbD 2 = f.l ∧
    ∀ k, 3 ≤ k → f.flByte.getLsbD k = false

/-- The error codes and infos on the status port (spec/60_exceptions.md R130, decision D4, log 8). -/
def Obligations.ErrorCodesAsTabled : Prop :=
  RunState.running.errorCode = 0 ∧ RunState.halted.errorCode = 0 ∧
  ∀ info : Int,
    (RunState.faulted .outOfBounds info).errorCode = 1 ∧
    (RunState.faulted .programTooLarge info).errorCode = 2 ∧
    (RunState.faulted .unsupportedOpcode info).errorCode = 3 ∧
    (RunState.faulted .unsupportedOperation info).errorCode = 4 ∧
    (RunState.faulted .stackUnderflow info).errorCode = 5 ∧
    (RunState.faulted .divideByZero info).errorCode = 6 ∧
    (RunState.faulted .badRegister info).errorCode = 7 ∧
    ∀ kind, (RunState.faulted kind info).errorInfo = some info

/-! ### Three rules that rest on no decision and no choice -/

/-- R20: each of R0 to R7 is written independently with any byte, named by the operand byte that holds its index; no register is
hard-wired, and none is an alias of another or of a special register, sp among them: writing one changes no other register and,
but for the advance of pc, nothing else, and writing sp (PUSH) changes no register. -/
def Obligations.RegistersAreIndependent : Prop :=
  (∀ (s : State) (r : RegIx) (a v : Byte), a.toNat = r.val → s.pc.toNat ≤ 252 →
    ∃ t, exec (.ldi a v) s = .next t ∧ t.reg r = v ∧ (∀ r', r' ≠ r → t.reg r' = s.reg r') ∧
      t.pc.toNat = s.pc.toNat + 3 ∧ t.sp = s.sp ∧ t.flags = s.flags ∧ t.run = s.run ∧ t.out = s.out ∧ t.mem = s.mem) ∧
  (∀ (s : State) (r : RegIx) (a : Byte), a.toNat = r.val → s.pc.toNat ≤ 253 → 1 ≤ s.sp.toNat →
    ∃ t, exec (.push a) s = .next t ∧ t.sp.toNat + 1 = s.sp.toNat ∧ ∀ r', t.reg r' = s.reg r')

/-- R63: LDI's operand B is the whole byte, taken as an unsigned value, with no extension, scaling or shift; every byte is a
legal immediate, whatever register operand stands beside it. -/
def Obligations.ImmediateIsTheWholeByte : Prop :=
  (∀ (s : State) (r : RegIx) (opB : Byte), s.pc.toNat ≤ 252 →
    ∃ t, exec (.ldi (regByte r) opB) s = .next t ∧ (t.reg r).toNat = opB.toNat) ∧
  (∀ r opB, (Instr.ldi (regByte r) opB).wellFormed = true)

/-- R42: a read returns the cell's current value and changes nothing, so reading again gives the same; a write changes exactly
the addressed cell; no address is an exception. -/
def Obligations.MemoryAccessesHaveNoSideEffect : Prop :=
  ∀ (s : State) (a : Nat), a ≤ 255 →
    (∀ k : Byte → Result, memRead a s k = k (s.mem.read a)) ∧
    (∀ k : Byte → Byte → Result, memRead a s (fun v => memRead a s (fun w => k v w)) = k (s.mem.read a) (s.mem.read a)) ∧
    (∀ v, ∃ t : State, (∀ k : State → Result, memWrite a v s k = k t) ∧ t.mem.read a = v ∧
      (∀ b, b ≠ a → t.mem.read b = s.mem.read b) ∧ { t with mem := s.mem } = s)

end
end

