-- ==== Sys2Proof/Laws/Memory.lean ====
section
/-! SUPPORT. The laws of memory: read after write, the canonical form kept by every operation, and what storing a run of
bytes leaves. They need no premise on the form of the list they start from. -/

namespace Sys2Proof.Machine

@[simp] theorem Memory.read_nil (a : Nat) : Memory.read [] a = 0 := rfl

theorem Memory.read_cons (c : Host.Cell) (m : Memory) (a : Nat) :
    Memory.read (c :: m) a = if c.1 = a then c.2 else Memory.read m a := rfl

/-- An address no cell lists reads as the unlisted byte. -/
theorem Memory.read_unlisted {m : Memory} {a : Nat} (h : ∀ c ∈ m, c.1 ≠ a) : m.read a = 0 := by
  induction m with
  | nil => rfl
  | cons c m ih =>
    rw [Memory.read_cons, if_neg (h c (by simp))]
    exact ih fun d hd => h d (by simp [hd])

/-- Dropping the cells of one address makes it read as unlisted and leaves every other address alone. -/
theorem Memory.read_filter (m : Memory) (a b : Nat) :
    Memory.read (m.filter (fun c => c.1 ≠ a)) b = if b = a then 0 else m.read b := by
  induction m with
  | nil => simp
  | cons c m ih =>
    by_cases hc : c.1 = a
    · rw [List.filter_cons_of_neg (by simp [hc]), ih, Memory.read_cons]
      by_cases hb : b = a
      · simp [hb]
      · simp [hb, hc, Ne.symm hb]
    · rw [List.filter_cons_of_pos (by simp [hc]), Memory.read_cons, Memory.read_cons, ih]
      by_cases hb : b = a
      · simp [hb, hc]
      · simp [hb]

theorem Memory.read_insertCell {m : Memory} {a : Nat} (h : ∀ c ∈ m, c.1 ≠ a) (v : Byte) (b : Nat) :
    Memory.read (Memory.insertCell a v m) b = if b = a then v else m.read b := by
  induction m with
  | nil => simp [Memory.insertCell, Memory.read_cons, eq_comm]
  | cons c m ih =>
    have hca : c.1 ≠ a := h c (by simp)
    unfold Memory.insertCell
    split
    · simp [Memory.read_cons, eq_comm]
    · rw [Memory.read_cons, ih fun d hd => h d (by simp [hd]), Memory.read_cons]
      by_cases hb : b = a
      · simp [hb, hca]
      · simp [hb]

theorem Memory.filter_ne (m : Memory) (a : Nat) : ∀ c ∈ m.filter (fun c => c.1 ≠ a), c.1 ≠ a := by
  intro c hc
  simpa using (List.mem_filter.mp hc).2

/-- Reading after a write: the written address gives the value, every other address reads as before (R42). -/
theorem Memory.read_write (m : Memory) (a b : Nat) (v : Byte) :
    (m.write a v).read b = if b = a then v else m.read b := by
  unfold Memory.write
  split
  · next h => rw [Memory.read_filter, h]
  · rw [Memory.read_insertCell (Memory.filter_ne m a), Memory.read_filter]
    split <;> rfl

@[simp] theorem Memory.read_write_same (m : Memory) (a : Nat) (v : Byte) : (m.write a v).read a = v := by
  simp [Memory.read_write]

theorem Memory.read_write_other (m : Memory) {a b : Nat} (v : Byte) (h : b ≠ a) :
    (m.write a v).read b = m.read b := by
  simp [Memory.read_write, h]

/-! ### The canonical form -/

theorem Memory.wf_nil : Memory.wf [] := by simp [Memory.wf]

theorem Memory.wf_filter {m : Memory} (h : m.wf) (a : Nat) : Memory.wf (m.filter (fun c => c.1 ≠ a)) :=
  ⟨h.1.filter _, fun c hc => h.2 c (List.mem_filter.mp hc).1⟩

theorem Memory.mem_insertCell {a : Nat} {v : Byte} {m : Memory} {c : Host.Cell} :
    c ∈ Memory.insertCell a v m ↔ c = (a, v) ∨ c ∈ m := by
  induction m with
  | nil => simp [Memory.insertCell]
  | cons d m ih =>
    unfold Memory.insertCell
    split
    · simp
    · simp only [List.mem_cons, ih]; tauto

theorem Memory.wf_insertCell {m : Memory} {a : Nat} {v : Byte} (h : m.wf) (hm : ∀ c ∈ m, c.1 ≠ a) (ha : a < 256)
    (hv : v ≠ 0) : Memory.wf (Memory.insertCell a v m) := by
  refine ⟨?_, ?_⟩
  · have hp := h.1
    clear h
    induction m with
    | nil => simp [Memory.insertCell]
    | cons c m ih =>
      have hca : c.1 ≠ a := hm c (by simp)
      rw [List.pairwise_cons] at hp
      unfold Memory.insertCell
      split
      · next hlt =>
        rw [List.pairwise_cons, List.pairwise_cons]
        refine ⟨fun d hd => ?_, hp⟩
        rcases List.mem_cons.mp hd with rfl | hd
        · exact hlt
        · exact Nat.lt_trans hlt (hp.1 d hd)
      · next hlt =>
        rw [List.pairwise_cons]
        refine ⟨fun d hd => ?_, ih (fun d hd => hm d (by simp [hd])) hp.2⟩
        rcases Memory.mem_insertCell.mp hd with rfl | hd
        · show c.1 < a
          omega
        · exact hp.1 d hd
  · intro c hc
    rcases Memory.mem_insertCell.mp hc with rfl | hc
    · exact ⟨ha, hv⟩
    · exact h.2 c hc

/-- A write to an address of the machine keeps the canonical form. -/
theorem Memory.wf_write {m : Memory} (h : m.wf) {a : Nat} (ha : a < 256) (v : Byte) : (m.write a v).wf := by
  unfold Memory.write
  split
  · exact Memory.wf_filter h a
  · next hv => exact Memory.wf_insertCell (Memory.wf_filter h a) (Memory.filter_ne m a) ha hv

/-- Storing a run of bytes keeps the canonical form, wherever it starts. -/
theorem Memory.wf_storeFrom {m : Memory} (h : m.wf) (a : Nat) (bs : List Byte) : (m.storeFrom a bs).wf := by
  induction bs generalizing m a with
  | nil => exact h
  | cons b bs ih =>
    unfold Memory.storeFrom
    split
    · next ha => exact ih (Memory.wf_write h ha b) _
    · exact ih h _

/-- Storing at rising addresses leaves every lower address alone. -/
theorem Memory.read_storeFrom_below (m : Memory) {a b : Nat} (h : b < a) (bs : List Byte) :
    (m.storeFrom a bs).read b = m.read b := by
  induction bs generalizing m a with
  | nil => rfl
  | cons v bs ih =>
    unfold Memory.storeFrom
    rw [ih _ (by omega)]
    split
    · exact Memory.read_write_other m v (by omega)
    · rfl

end Sys2Proof.Machine
end

