-- ==== Sys2Proof/Laws/State.lean ====
section
/-! SUPPORT. One lemma per field per update of `State`, so that no later proof unfolds a record update; and the register
file's read-after-write. -/

namespace Sys2Proof.Machine

/-! ### setReg -/

@[simp] theorem State.setReg_regs (s : State) (r : RegIx) (v : Byte) : (s.setReg r v).regs = s.regs.set r v := rfl
@[simp] theorem State.setReg_pc (s : State) (r : RegIx) (v : Byte) : (s.setReg r v).pc = s.pc := rfl
@[simp] theorem State.setReg_sp (s : State) (r : RegIx) (v : Byte) : (s.setReg r v).sp = s.sp := rfl
@[simp] theorem State.setReg_flags (s : State) (r : RegIx) (v : Byte) : (s.setReg r v).flags = s.flags := rfl
@[simp] theorem State.setReg_run (s : State) (r : RegIx) (v : Byte) : (s.setReg r v).run = s.run := rfl
@[simp] theorem State.setReg_out (s : State) (r : RegIx) (v : Byte) : (s.setReg r v).out = s.out := rfl
@[simp] theorem State.setReg_mem (s : State) (r : RegIx) (v : Byte) : (s.setReg r v).mem = s.mem := rfl
@[simp] theorem State.setReg_cell (s : State) (r : RegIx) (v : Byte) (x : Nat) : (s.setReg r v).cell x = s.cell x := rfl

/-! ### setPc -/

@[simp] theorem State.setPc_regs (s : State) (v : Byte) : (s.setPc v).regs = s.regs := rfl
@[simp] theorem State.setPc_pc (s : State) (v : Byte) : (s.setPc v).pc = v := rfl
@[simp] theorem State.setPc_sp (s : State) (v : Byte) : (s.setPc v).sp = s.sp := rfl
@[simp] theorem State.setPc_flags (s : State) (v : Byte) : (s.setPc v).flags = s.flags := rfl
@[simp] theorem State.setPc_run (s : State) (v : Byte) : (s.setPc v).run = s.run := rfl
@[simp] theorem State.setPc_out (s : State) (v : Byte) : (s.setPc v).out = s.out := rfl
@[simp] theorem State.setPc_mem (s : State) (v : Byte) : (s.setPc v).mem = s.mem := rfl
@[simp] theorem State.setPc_reg (s : State) (v : Byte) (i : RegIx) : (s.setPc v).reg i = s.reg i := rfl
@[simp] theorem State.setPc_cell (s : State) (v : Byte) (x : Nat) : (s.setPc v).cell x = s.cell x := rfl

/-! ### setSp -/

@[simp] theorem State.setSp_regs (s : State) (v : Byte) : (s.setSp v).regs = s.regs := rfl
@[simp] theorem State.setSp_pc (s : State) (v : Byte) : (s.setSp v).pc = s.pc := rfl
@[simp] theorem State.setSp_sp (s : State) (v : Byte) : (s.setSp v).sp = v := rfl
@[simp] theorem State.setSp_flags (s : State) (v : Byte) : (s.setSp v).flags = s.flags := rfl
@[simp] theorem State.setSp_run (s : State) (v : Byte) : (s.setSp v).run = s.run := rfl
@[simp] theorem State.setSp_out (s : State) (v : Byte) : (s.setSp v).out = s.out := rfl
@[simp] theorem State.setSp_mem (s : State) (v : Byte) : (s.setSp v).mem = s.mem := rfl
@[simp] theorem State.setSp_reg (s : State) (v : Byte) (i : RegIx) : (s.setSp v).reg i = s.reg i := rfl
@[simp] theorem State.setSp_cell (s : State) (v : Byte) (x : Nat) : (s.setSp v).cell x = s.cell x := rfl

/-! ### setFlags -/

@[simp] theorem State.setFlags_regs (s : State) (f : Flags) : (s.setFlags f).regs = s.regs := rfl
@[simp] theorem State.setFlags_pc (s : State) (f : Flags) : (s.setFlags f).pc = s.pc := rfl
@[simp] theorem State.setFlags_sp (s : State) (f : Flags) : (s.setFlags f).sp = s.sp := rfl
@[simp] theorem State.setFlags_flags (s : State) (f : Flags) : (s.setFlags f).flags = f := rfl
@[simp] theorem State.setFlags_run (s : State) (f : Flags) : (s.setFlags f).run = s.run := rfl
@[simp] theorem State.setFlags_out (s : State) (f : Flags) : (s.setFlags f).out = s.out := rfl
@[simp] theorem State.setFlags_mem (s : State) (f : Flags) : (s.setFlags f).mem = s.mem := rfl
@[simp] theorem State.setFlags_reg (s : State) (f : Flags) (i : RegIx) : (s.setFlags f).reg i = s.reg i := rfl
@[simp] theorem State.setFlags_cell (s : State) (f : Flags) (x : Nat) : (s.setFlags f).cell x = s.cell x := rfl

/-! ### setRun -/

@[simp] theorem State.setRun_regs (s : State) (r : RunState) : (s.setRun r).regs = s.regs := rfl
@[simp] theorem State.setRun_pc (s : State) (r : RunState) : (s.setRun r).pc = s.pc := rfl
@[simp] theorem State.setRun_sp (s : State) (r : RunState) : (s.setRun r).sp = s.sp := rfl
@[simp] theorem State.setRun_flags (s : State) (r : RunState) : (s.setRun r).flags = s.flags := rfl
@[simp] theorem State.setRun_run (s : State) (r : RunState) : (s.setRun r).run = r := rfl
@[simp] theorem State.setRun_out (s : State) (r : RunState) : (s.setRun r).out = s.out := rfl
@[simp] theorem State.setRun_mem (s : State) (r : RunState) : (s.setRun r).mem = s.mem := rfl
@[simp] theorem State.setRun_reg (s : State) (r : RunState) (i : RegIx) : (s.setRun r).reg i = s.reg i := rfl
@[simp] theorem State.setRun_cell (s : State) (r : RunState) (x : Nat) : (s.setRun r).cell x = s.cell x := rfl

/-! ### setMem -/

@[simp] theorem State.setMem_regs (s : State) (m : Memory) : (s.setMem m).regs = s.regs := rfl
@[simp] theorem State.setMem_pc (s : State) (m : Memory) : (s.setMem m).pc = s.pc := rfl
@[simp] theorem State.setMem_sp (s : State) (m : Memory) : (s.setMem m).sp = s.sp := rfl
@[simp] theorem State.setMem_flags (s : State) (m : Memory) : (s.setMem m).flags = s.flags := rfl
@[simp] theorem State.setMem_run (s : State) (m : Memory) : (s.setMem m).run = s.run := rfl
@[simp] theorem State.setMem_out (s : State) (m : Memory) : (s.setMem m).out = s.out := rfl
@[simp] theorem State.setMem_mem (s : State) (m : Memory) : (s.setMem m).mem = m := rfl
@[simp] theorem State.setMem_reg (s : State) (m : Memory) (i : RegIx) : (s.setMem m).reg i = s.reg i := rfl
@[simp] theorem State.setMem_cell (s : State) (m : Memory) (x : Nat) : (s.setMem m).cell x = m.read x := rfl

/-! ### emit -/

@[simp] theorem State.emit_regs (s : State) (v : Byte) : (s.emit v).regs = s.regs := rfl
@[simp] theorem State.emit_pc (s : State) (v : Byte) : (s.emit v).pc = s.pc := rfl
@[simp] theorem State.emit_sp (s : State) (v : Byte) : (s.emit v).sp = s.sp := rfl
@[simp] theorem State.emit_flags (s : State) (v : Byte) : (s.emit v).flags = s.flags := rfl
@[simp] theorem State.emit_run (s : State) (v : Byte) : (s.emit v).run = s.run := rfl
@[simp] theorem State.emit_out (s : State) (v : Byte) : (s.emit v).out = s.out ++ [v] := rfl
@[simp] theorem State.emit_mem (s : State) (v : Byte) : (s.emit v).mem = s.mem := rfl
@[simp] theorem State.emit_reg (s : State) (v : Byte) (i : RegIx) : (s.emit v).reg i = s.reg i := rfl
@[simp] theorem State.emit_cell (s : State) (v : Byte) (x : Nat) : (s.emit v).cell x = s.cell x := rfl

/-! ### The register file -/

/-- Reading a register after a write: the written one gives the value, every other is unchanged. -/
theorem State.reg_setReg (s : State) (r i : RegIx) (v : Byte) :
    (s.setReg r v).reg i = if i = r then v else s.reg i := by
  simp only [State.reg, State.setReg, Fin.getElem_fin, Vector.getElem_set]
  simp [Fin.ext_iff, eq_comm]

@[simp] theorem State.reg_setReg_same (s : State) (r : RegIx) (v : Byte) : (s.setReg r v).reg r = v := by
  simp [State.reg_setReg]

theorem State.reg_setReg_other (s : State) (r i : RegIx) (v : Byte) (h : i ≠ r) :
    (s.setReg r v).reg i = s.reg i := by
  simp [State.reg_setReg, h]

/-- Two states are equal when they agree on every register and every other field. -/
theorem State.ext_regs {s t : State} (hr : ∀ i, s.reg i = t.reg i) (hpc : s.pc = t.pc) (hsp : s.sp = t.sp)
    (hf : s.flags = t.flags) (hrun : s.run = t.run) (ho : s.out = t.out) (hm : s.mem = t.mem) : s = t := by
  obtain ⟨rs, _, _, _, _, _, _⟩ := s
  obtain ⟨rt, _, _, _, _, _, _⟩ := t
  have : rs = rt := Vector.ext fun i hi => hr ⟨i, hi⟩
  subst this
  cases hpc; cases hsp; cases hf; cases hrun; cases ho; cases hm
  rfl

/-! ### The reset state (R32, R150) -/

@[simp] theorem State.reset_reg (i : RegIx) : State.reset.reg i = 0 := by revert i; decide
@[simp] theorem State.reset_pc : State.reset.pc = 0 := rfl
@[simp] theorem State.reset_sp : State.reset.sp = 0xF4 := rfl
@[simp] theorem State.reset_flags : State.reset.flags = ⟨false, false, false⟩ := rfl
@[simp] theorem State.reset_run : State.reset.run = .running := rfl
@[simp] theorem State.reset_out : State.reset.out = [] := rfl
@[simp] theorem State.reset_mem : State.reset.mem = [] := rfl

end Sys2Proof.Machine
end

