-- ==== Sys2Proof/Laws/Ops.lean ====
section
/-! SUPPORT. For each shared operation, one lemma that says everything it can do; the proofs about instructions cite these
and do not unfold the operations. -/

namespace Sys2Proof.Machine

/-! ### Fault entry -/

theorem raise_eq (kind : ErrorKind) (info : Int) (s : State) :
    raise kind info s = .next (s.setRun (.faulted kind info)) := rfl

/-- Entering a fault changes the run state and nothing else (R133). -/
theorem raise_next {kind : ErrorKind} {info : Int} {s t : State} (h : raise kind info s = .next t) :
    t = s.setRun (.faulted kind info) := by
  cases h; rfl

/-! ### The register check -/

theorem regByte_toNat (r : RegIx) : (regByte r).toNat = r.val := by revert r; decide

@[simp] theorem checkReg_regByte (r : RegIx) (s : State) (k : RegIx → Result) : checkReg (regByte r) s k = k r := by
  have h : (regByte r).toNat < 8 := by rw [regByte_toNat]; exact r.isLt
  simp only [checkReg, h, dite_true]
  congr 1
  exact Fin.ext (regByte_toNat r)

theorem checkReg_bad {b : Byte} (h : 7 < b.toNat) (s : State) (k : RegIx → Result) :
    checkReg b s k = raise .badRegister b.toNat s := by
  simp [checkReg, show ¬ b.toNat < 8 by omega]

/-- A register check either goes on with the register the byte names, or faults with the byte and writes nothing (R62). -/
theorem checkReg_cases (b : Byte) (s : State) (k : RegIx → Result) :
    (∃ r, b = regByte r ∧ checkReg b s k = k r) ∨ (7 < b.toNat ∧ checkReg b s k = raise .badRegister b.toNat s) := by
  by_cases h : b.toNat < 8
  · have hb : b = regByte ⟨b.toNat, h⟩ := BitVec.eq_of_toNat_eq (by rw [regByte_toNat])
    exact .inl ⟨⟨b.toNat, h⟩, hb, by simp [checkReg, h]⟩
  · exact .inr ⟨by omega, checkReg_bad (by omega) s k⟩

/-! ### The sequential advance -/

theorem advance_of_le {w : Nat} {s : State} (h : s.pc.toNat + w ≤ 255) :
    advance w s = .next (s.setPc (BitVec.ofNat 8 (s.pc.toNat + w))) := by
  simp [advance, show s.pc.toNat + w < 256 by omega]

theorem advance_of_gt {w : Nat} {s : State} (h : 255 < s.pc.toNat + w) :
    advance w s = raise .outOfBounds (s.pc.toNat + w) s := by
  simp [advance, show ¬ s.pc.toNat + w < 256 by omega]

/-- The advance writes pc alone, or faults with pc kept (R154, R155). -/
theorem advance_cases (w : Nat) (s : State) :
    (s.pc.toNat + w ≤ 255 ∧ advance w s = .next (s.setPc (BitVec.ofNat 8 (s.pc.toNat + w)))) ∨
    (255 < s.pc.toNat + w ∧ advance w s = .next (s.setRun (.faulted .outOfBounds (s.pc.toNat + w)))) := by
  by_cases h : s.pc.toNat + w ≤ 255
  · exact .inl ⟨h, advance_of_le h⟩
  · exact .inr ⟨by omega, advance_of_gt (by omega)⟩

/-! ### Memory accesses -/

/-- A read goes on with the cell's value and an unchanged state, or faults outside 0..255 (R41, R42). -/
theorem memRead_cases (a : Int) (s : State) (k : Byte → Result) :
    (inMemory a ∧ memRead a s k = k (s.cell a.toNat)) ∨ (¬ inMemory a ∧ memRead a s k = raise .outOfBounds a s) := by
  by_cases h : inMemory a
  · exact .inl ⟨h, if_pos h⟩
  · exact .inr ⟨h, if_neg h⟩

/-- A write goes on with the one cell changed, or faults outside 0..255 with nothing written (R41, R42). -/
theorem memWrite_cases (a : Int) (v : Byte) (s : State) (k : State → Result) :
    (inMemory a ∧ memWrite a v s k = k (s.setMem (s.mem.write a.toNat v))) ∨
    (¬ inMemory a ∧ memWrite a v s k = raise .outOfBounds a s) := by
  by_cases h : inMemory a
  · exact .inl ⟨h, if_pos h⟩
  · exact .inr ⟨h, if_neg h⟩

/-- PUSH's address is an access exactly when sp is not 0. -/
theorem pushAddress_inMemory (s : State) : inMemory (pushAddress s) ↔ 1 ≤ s.sp.toNat := by
  have := s.sp.isLt
  simp only [inMemory, pushAddress, Config.memSize]
  constructor <;> omega

theorem pushAddress_toNat (s : State) : (pushAddress s).toNat = s.sp.toNat - 1 := by
  simp only [pushAddress]; omega

theorem stackEmpty_iff (s : State) : stackEmpty s = true ↔ 0xF4 ≤ s.sp.toNat := by
  simp [stackEmpty]

end Sys2Proof.Machine
end

