-- ==== Sys2Proof/Laws/Alu.lean ====
section
/-! SUPPORT. What the ALU answers for each operation, and everything an ALU instruction can do. -/

namespace Sys2Proof.Machine

@[simp] theorem alu_mul (x y : Byte) : alu Opcode.mul x y = .value (aluMul x y) := rfl
@[simp] theorem alu_and (x y : Byte) : alu Opcode.and x y = .value (aluAnd x y) := rfl
@[simp] theorem alu_or (x y : Byte) : alu Opcode.or x y = .value (aluOr x y) := rfl
@[simp] theorem alu_xor (x y : Byte) : alu Opcode.xor x y = .value (aluXor x y) := rfl
@[simp] theorem alu_shl (x y : Byte) : alu Opcode.shl x y = .value (aluShl x y) := rfl
@[simp] theorem alu_shr (x y : Byte) : alu Opcode.shr x y = .value (aluShr x y) := rfl
@[simp] theorem alu_mod (x y : Byte) :
    alu Opcode.mod x y = if y = 0 then .divideByZero else .value (aluMod x y) := rfl
@[simp] theorem alu_not (x y : Byte) : alu Opcode.not x y = .value (aluNot y) := rfl
@[simp] theorem alu_cmp (x y : Byte) : alu Opcode.cmp x y = .flags (compareFlags x y) := rfl

@[simp] theorem applyAlu_value (ra rb : RegIx) (s : State) (v : Byte) :
    applyAlu ra rb s (.value v) = advance 3 (s.setReg ra v) := rfl
@[simp] theorem applyAlu_flags (ra rb : RegIx) (s : State) (f : Flags) :
    applyAlu ra rb s (.flags f) = advance 3 (s.setFlags f) := rfl
@[simp] theorem applyAlu_divideByZero (ra rb : RegIx) (s : State) :
    applyAlu ra rb s .divideByZero = raise .divideByZero rb.val s := rfl
@[simp] theorem applyAlu_unsupportedOperation (ra rb : RegIx) (s : State) (op : Byte) :
    applyAlu ra rb s (.unsupportedOperation op) = raise .unsupportedOperation op.toNat s := rfl

@[simp] theorem runAlu_regByte (op : Byte) (ra rb : RegIx) (s : State) :
    runAlu op (regByte ra) (regByte rb) s = applyAlu ra rb s (alu op (s.reg ra) (s.reg rb)) := by
  simp [runAlu]

theorem runAlu_badA (op : Byte) {a : Byte} (h : 7 < a.toNat) (b : Byte) (s : State) :
    runAlu op a b s = raise .badRegister a.toNat s := checkReg_bad h s _

theorem runAlu_badB (op : Byte) (ra : RegIx) {b : Byte} (h : 7 < b.toNat) (s : State) :
    runAlu op (regByte ra) b s = raise .badRegister b.toNat s := by
  simp [runAlu, checkReg_bad h]

/-- An ALU instruction applies the ALU to two registers, or faults on operand A, or on operand B (R132 items 3 to 5). -/
theorem runAlu_cases (op a b : Byte) (s : State) :
    (∃ ra rb, a = regByte ra ∧ b = regByte rb ∧
      runAlu op a b s = applyAlu ra rb s (alu op (s.reg ra) (s.reg rb))) ∨
    (7 < a.toNat ∧ runAlu op a b s = raise .badRegister a.toNat s) ∨
    (a.toNat ≤ 7 ∧ 7 < b.toNat ∧ runAlu op a b s = raise .badRegister b.toNat s) := by
  rcases checkReg_cases a s (fun ra => checkReg b s fun rb => applyAlu ra rb s (alu op (s.reg ra) (s.reg rb)))
    with ⟨ra, ha, h⟩ | ⟨ha, h⟩
  · rcases checkReg_cases b s (fun rb => applyAlu ra rb s (alu op (s.reg ra) (s.reg rb))) with ⟨rb, hb, h'⟩ | ⟨hb, h'⟩
    · exact .inl ⟨ra, rb, ha, hb, h.trans h'⟩
    · refine .inr (.inr ⟨?_, hb, h.trans h'⟩)
      rw [ha, regByte_toNat]
      omega
  · exact .inr (.inl ⟨ha, h⟩)

/-- CMP's outcome by cases on the unsigned order (R100). -/
theorem compareFlags_cases (x y : Byte) :
    (x.toNat = y.toNat ∧ compareFlags x y = ⟨true, false, false⟩) ∨
    (y.toNat < x.toNat ∧ compareFlags x y = ⟨false, true, false⟩) ∨
    (x.toNat < y.toNat ∧ compareFlags x y = ⟨false, false, true⟩) := by
  unfold compareFlags
  split
  · exact .inl ⟨‹_›, rfl⟩
  · split
    · exact .inr (.inl ⟨by omega, rfl⟩)
    · exact .inr (.inr ⟨by omega, rfl⟩)

end Sys2Proof.Machine
end

