-- ==== Sys2Proof/Laws/Decode.lean ====
section
/-! SUPPORT. What the opcode map answers for each of its bytes, how decoding goes from there, and how long an encoding is. -/

namespace Sys2Proof

/-! ### One lemma per row of the map (R64) -/

@[simp] theorem lookup_hlt : lookupOpcode Opcode.hlt = some ⟨Opcode.hlt, .f1 .hlt⟩ := rfl
@[simp] theorem lookup_ldi : lookupOpcode Opcode.ldi = some ⟨Opcode.ldi, .f3 .ldi⟩ := rfl
@[simp] theorem lookup_prn : lookupOpcode Opcode.prn = some ⟨Opcode.prn, .f2 .prn⟩ := rfl
@[simp] theorem lookup_mul : lookupOpcode Opcode.mul = some ⟨Opcode.mul, .f3 .mul⟩ := rfl
@[simp] theorem lookup_and : lookupOpcode Opcode.and = some ⟨Opcode.and, .f3 .and⟩ := rfl
@[simp] theorem lookup_or : lookupOpcode Opcode.or = some ⟨Opcode.or, .f3 .or⟩ := rfl
@[simp] theorem lookup_xor : lookupOpcode Opcode.xor = some ⟨Opcode.xor, .f3 .xor⟩ := rfl
@[simp] theorem lookup_shl : lookupOpcode Opcode.shl = some ⟨Opcode.shl, .f3 .shl⟩ := rfl
@[simp] theorem lookup_shr : lookupOpcode Opcode.shr = some ⟨Opcode.shr, .f3 .shr⟩ := rfl
@[simp] theorem lookup_mod : lookupOpcode Opcode.mod = some ⟨Opcode.mod, .f3 .mod⟩ := rfl
@[simp] theorem lookup_not : lookupOpcode Opcode.not = some ⟨Opcode.not, .f3 .not⟩ := rfl
@[simp] theorem lookup_cmp : lookupOpcode Opcode.cmp = some ⟨Opcode.cmp, .f3 .cmp⟩ := rfl
@[simp] theorem lookup_push : lookupOpcode Opcode.push = some ⟨Opcode.push, .f2 .push⟩ := rfl
@[simp] theorem lookup_pop : lookupOpcode Opcode.pop = some ⟨Opcode.pop, .f2 .pop⟩ := rfl
@[simp] theorem lookup_jmp : lookupOpcode Opcode.jmp = some ⟨Opcode.jmp, .f2 .jmp⟩ := rfl
@[simp] theorem lookup_jeq : lookupOpcode Opcode.jeq = some ⟨Opcode.jeq, .f2 .jeq⟩ := rfl
@[simp] theorem lookup_jne : lookupOpcode Opcode.jne = some ⟨Opcode.jne, .f2 .jne⟩ := rfl

/-- A row that the lookup answers stands in the map, under the byte looked up. -/
theorem lookup_mem {op : Byte} {row : OpcodeRow} (h : lookupOpcode op = some row) :
    row ∈ opcodeMap ∧ row.opcode = op := by
  unfold lookupOpcode at h
  exact ⟨List.mem_of_find?_eq_some h, by simpa using List.find?_some h⟩

/-- The lookup fails exactly on the bytes the map does not list (R66). -/
theorem lookup_none_iff {op : Byte} : lookupOpcode op = none ↔ ∀ row ∈ opcodeMap, row.opcode ≠ op := by
  simp [lookupOpcode, List.find?_eq_none]

/-! ### Decoding -/

theorem decode_nil : decode [] = .missingByte 0 := rfl

theorem decode_cons (op : Byte) (rest : List Byte) :
    decode (op :: rest) =
      match lookupOpcode op with
      | none => .unsupportedOpcode op
      | some row => row.form.take rest := rfl

/-- A byte the decoder misses is operand A or B. -/
theorem take_missingByte {form : OperandForm} {bytes : List Byte} {k : Nat} (h : form.take bytes = .missingByte k) :
    (k = 1 ∧ bytes.length = 0) ∨ (k = 2 ∧ bytes.length = 1) := by
  rcases form with i | mk | mk <;> rcases bytes with _ | ⟨a, _ | ⟨b, rest⟩⟩ <;> simp_all [OperandForm.take]

/-- Taking operand bytes never answers an unsupported opcode. -/
theorem take_ne_unsupported (form : OperandForm) (bytes : List Byte) (op : Byte) :
    form.take bytes ≠ .unsupportedOpcode op := by
  rcases form with i | mk | mk <;> rcases bytes with _ | ⟨a, _ | ⟨b, rest⟩⟩ <;> simp [OperandForm.take]

/-- A decode that answers an unsupported opcode answers the first byte, which the map does not list. -/
theorem decode_unsupported {bytes : List Byte} {op : Byte} (h : decode bytes = .unsupportedOpcode op) :
    ∃ rest, bytes = op :: rest ∧ lookupOpcode op = none := by
  rcases bytes with _ | ⟨b, rest⟩
  · simp [decode_nil] at h
  · rw [decode_cons] at h
    split at h
    · next hb =>
      cases h
      exact ⟨rest, rfl, hb⟩
    · exact absurd h (take_ne_unsupported _ _ _)

/-! ### Lengths -/

theorem Instr.width_pos (i : Instr) : 1 ≤ i.width := by cases i <;> simp [Instr.width]

theorem Instr.width_le (i : Instr) : i.width ≤ 3 := by cases i <;> simp [Instr.width]

end Sys2Proof
end

