-- ==== Sys2Proof/Laws/Exec.lean ====
section
/-! SUPPORT. What each arm of `exec` is over the shared operations, and the ways a stack or jump instruction can go. -/

namespace Sys2Proof.Machine

variable (a b imm : Byte) (r : RegIx) (s : State)

theorem exec_ldi : exec (.ldi a imm) s = checkReg a s fun ra => advance 3 (s.setReg ra imm) := rfl
theorem exec_prn : exec (.prn a) s = checkReg a s fun ra => advance 2 (s.emit (s.reg ra)) := rfl
theorem exec_mul : exec (.mul a b) s = runAlu Opcode.mul a b s := rfl
theorem exec_and : exec (.and a b) s = runAlu Opcode.and a b s := rfl
theorem exec_or : exec (.or a b) s = runAlu Opcode.or a b s := rfl
theorem exec_xor : exec (.xor a b) s = runAlu Opcode.xor a b s := rfl
theorem exec_shl : exec (.shl a b) s = runAlu Opcode.shl a b s := rfl
theorem exec_shr : exec (.shr a b) s = runAlu Opcode.shr a b s := rfl
theorem exec_mod : exec (.mod a b) s = runAlu Opcode.mod a b s := rfl
theorem exec_not : exec (.not a b) s = runAlu Opcode.not a b s := rfl
theorem exec_cmp : exec (.cmp a b) s = runAlu Opcode.cmp a b s := rfl
theorem exec_jmp : exec (.jmp a) s = checkReg a s fun ra => jumpTo ra s := rfl
theorem exec_jeq : exec (.jeq a) s = checkReg a s fun ra => if s.flags.e then jumpTo ra s else advance 2 s := rfl
theorem exec_jne : exec (.jne a) s = checkReg a s fun ra => if s.flags.e then advance 2 s else jumpTo ra s := rfl

theorem exec_push : exec (.push a) s = checkReg a s fun ra =>
    memWrite (pushAddress s) (s.reg ra) s fun t => advance 2 (t.setSp (BitVec.ofInt 8 (pushAddress s))) := rfl
theorem exec_pop : exec (.pop a) s = checkReg a s fun ra =>
    if stackEmpty s then raise .stackUnderflow s.sp.toNat s
    else memRead s.sp.toNat s fun v => advance 2 ((s.setReg ra v).setSp (s.sp + 1)) := rfl

/-- HLT's two cases (R80). -/
theorem exec_hlt_cases :
    (s.pc.toNat ≤ 254 ∧ exec .hlt s = .next ((s.setRun .halted).setPc (BitVec.ofNat 8 (s.pc.toNat + 1)))) ∨
    (s.pc.toNat = 255 ∧ exec .hlt s = .next (s.setRun .halted)) := by
  have := s.pc.isLt
  by_cases h : s.pc.toNat + 1 < 256
  · exact .inl ⟨by omega, if_pos h⟩
  · exact .inr ⟨by omega, if_neg h⟩

/-- PUSH of a register: the store, then the advance; or the full stack's fault (R111). -/
theorem exec_push_cases :
    (1 ≤ s.sp.toNat ∧ exec (.push (regByte r)) s =
      advance 2 ((s.setMem (s.mem.write (s.sp.toNat - 1) (s.reg r))).setSp (BitVec.ofNat 8 (s.sp.toNat - 1)))) ∨
    (s.sp.toNat = 0 ∧ exec (.push (regByte r)) s = raise .outOfBounds (-1) s) := by
  rw [exec_push, checkReg_regByte]
  by_cases h : 1 ≤ s.sp.toNat
  · refine .inl ⟨h, ?_⟩
    have hn : pushAddress s = ((s.sp.toNat - 1 : Nat) : Int) := by simp only [pushAddress]; omega
    rw [memWrite, if_pos ((pushAddress_inMemory s).2 h), hn, Int.toNat_natCast, BitVec.ofInt_natCast]
  · have h0 : s.sp.toNat = 0 := by omega
    refine .inr ⟨h0, ?_⟩
    rw [memWrite, if_neg (mt (pushAddress_inMemory s).1 h)]
    simp [pushAddress, h0]

/-- POP into a register: the load, then the advance; or the empty stack's fault (R112). -/
theorem exec_pop_cases :
    (s.sp.toNat < 0xF4 ∧ exec (.pop (regByte r)) s =
      advance 2 ((s.setReg r (s.cell s.sp.toNat)).setSp (s.sp + 1))) ∨
    (0xF4 ≤ s.sp.toNat ∧ exec (.pop (regByte r)) s = raise .stackUnderflow s.sp.toNat s) := by
  by_cases h : 0xF4 ≤ s.sp.toNat
  · exact .inr ⟨h, by rw [exec_pop, checkReg_regByte, if_pos ((stackEmpty_iff s).2 h)]⟩
  · have hin : inMemory (s.sp.toNat : Int) := by
      simp only [inMemory, Config.memSize]; omega
    have hne : ¬ stackEmpty s = true := mt (stackEmpty_iff s).1 h
    refine .inl ⟨by omega, ?_⟩
    rw [exec_pop, checkReg_regByte, if_neg hne, memRead, if_pos hin, Int.toNat_natCast]

/-- A one-operand stack instruction with a bad operand byte. -/
theorem exec_push_bad {x : Byte} (h : 7 < x.toNat) : exec (.push x) s = raise .badRegister x.toNat s := by
  rw [exec_push, checkReg_bad h]

theorem exec_pop_bad {x : Byte} (h : 7 < x.toNat) : exec (.pop x) s = raise .badRegister x.toNat s := by
  rw [exec_pop, checkReg_bad h]

/-- sp + 1 does not wrap below the sentinel. -/
theorem sp_succ_toNat {s : State} (h : s.sp.toNat < 0xF4) : (s.sp + 1).toNat = s.sp.toNat + 1 := by
  rw [BitVec.toNat_add]
  show (s.sp.toNat + 1) % 256 = _
  omega

/-- Every operand byte names a register or is above 7 (R62). -/
theorem operandByte_cases (x : Byte) : (∃ r, x = regByte r) ∨ 7 < x.toNat := by
  rcases checkReg_cases x State.reset (fun _ => .next State.reset) with ⟨r, h, _⟩ | ⟨h, _⟩
  · exact .inl ⟨r, h⟩
  · exact .inr h

end Sys2Proof.Machine
end

