-- ==== Sys2Proof/Laws/Step.lean ====
section
/-! SUPPORT. What the fetch unit delivers, and the cases of a step. -/

namespace Sys2Proof.Machine

/-- The bytes the fetch unit delivers, by how far pc is from the top of memory (R54). -/
theorem fetchBytes_cases (s : State) :
    (s.pc.toNat ≤ 253 ∧
      fetchBytes s = [s.cell s.pc.toNat, s.cell (s.pc.toNat + 1), s.cell (s.pc.toNat + 2)]) ∨
    (s.pc.toNat = 254 ∧ fetchBytes s = [s.cell 254, s.cell 255]) ∨
    (s.pc.toNat = 255 ∧ fetchBytes s = [s.cell 255]) := by
  have hlt := s.pc.isLt
  by_cases h : s.pc.toNat ≤ 253
  · refine .inl ⟨h, ?_⟩
    simp [fetchBytes, show s.pc.toNat < 256 by omega, show s.pc.toNat + 1 < 256 by omega,
      show s.pc.toNat + 2 < 256 by omega]
  · by_cases h' : s.pc.toNat = 254
    · exact .inr (.inl ⟨h', by simp [fetchBytes, h']⟩)
    · have h'' : s.pc.toNat = 255 := by omega
      exact .inr (.inr ⟨h'', by simp [fetchBytes, h'']⟩)

/-- The fetch unit always delivers the opcode byte first (R153: that read never faults). -/
theorem fetchBytes_eq_cons (s : State) : ∃ rest, fetchBytes s = s.cell s.pc.toNat :: rest ∧ rest.length ≤ 2 := by
  rcases fetchBytes_cases s with ⟨_, h⟩ | ⟨hp, h⟩ | ⟨hp, h⟩ <;> rw [h] <;> (try rw [hp]) <;> exact ⟨_, rfl, by simp⟩

@[simp] theorem execDecoded_ok (s : State) (i : Instr) (rest : List Byte) : execDecoded s (.ok i rest) = exec i s := rfl
@[simp] theorem execDecoded_unsupportedOpcode (s : State) (op : Byte) :
    execDecoded s (.unsupportedOpcode op) = raise .unsupportedOpcode op.toNat s := rfl
@[simp] theorem execDecoded_missingByte (s : State) (k : Nat) :
    execDecoded s (.missingByte k) = raise .outOfBounds (s.pc.toNat + k) s := rfl

theorem step_halted {s : State} (h : s.run = .halted) : step s = .fault .coreHalted := by
  simp [step, h]

theorem step_faulted {s : State} {kind : ErrorKind} {info : Int} (h : s.run = .faulted kind info) :
    step s = .fault (.coreFaulted kind info) := by
  simp [step, h]

theorem step_running {s : State} (h : s.run = .running) : step s = execDecoded s (decode (fetchBytes s)) := by
  simp [step, h]

/-- A step that answers a next state started Running, and ran the decoded instruction, or faulted on the opcode, or faulted
on an operand byte above address 255 (R153). -/
theorem step_cases {s t : State} (h : step s = .next t) :
    s.run = .running ∧
    ((∃ i rest, decode (fetchBytes s) = .ok i rest ∧ exec i s = .next t) ∨
     (∃ op, decode (fetchBytes s) = .unsupportedOpcode op ∧
       t = s.setRun (.faulted .unsupportedOpcode op.toNat)) ∨
     (∃ k, decode (fetchBytes s) = .missingByte k ∧
       t = s.setRun (.faulted .outOfBounds (s.pc.toNat + k)))) := by
  cases hr : s.run with
  | halted => simp [step_halted hr] at h
  | faulted kind info => simp [step_faulted hr] at h
  | running =>
    refine ⟨rfl, ?_⟩
    rw [step_running hr] at h
    cases hd : decode (fetchBytes s) with
    | ok i rest => exact .inl ⟨i, rest, rfl, by rwa [hd] at h⟩
    | unsupportedOpcode op => exact .inr (.inl ⟨op, rfl, raise_next (by rwa [hd] at h)⟩)
    | missingByte k => exact .inr (.inr ⟨k, rfl, raise_next (by rwa [hd] at h)⟩)

/-- The word placed for the host's probe keeps the memory's canonical form and changes nothing but memory. -/
theorem withFetchWord_frame (s : State) (nbits w : Nat) :
    (s.withFetchWord nbits w).regs = s.regs ∧ (s.withFetchWord nbits w).pc = s.pc ∧
    (s.withFetchWord nbits w).sp = s.sp ∧ (s.withFetchWord nbits w).flags = s.flags ∧
    (s.withFetchWord nbits w).run = s.run ∧ (s.withFetchWord nbits w).out = s.out :=
  ⟨rfl, rfl, rfl, rfl, rfl, rfl⟩

theorem withFetchWord_wf {s : State} (h : s.mem.wf) (nbits w : Nat) : (s.withFetchWord nbits w).mem.wf :=
  Memory.wf_storeFrom h _ _

theorem reset_mem_wf : State.reset.mem.wf := Memory.wf_nil

end Sys2Proof.Machine
end

