-- ==== Sys2Proof/Laws/Effect.lean ====
section
/-! SUPPORT. Said once: everything an instruction can do. `Effect i s t` lists the ways `exec i s` can answer `t`, and
`exec_effect` proves the list complete; frames, invariants and whole-machine rules are case analyses over it. -/

namespace Sys2Proof.Machine

/-- The instructions that write a register through operand A and leave sp alone (spec/10_state.md R21). -/
abbrev registerWriters (a b : Byte) : List Instr :=
  [.ldi a b, .mul a b, .and a b, .or a b, .xor a b, .shl a b, .shr a b, .mod a b, .not a b]

/-- The states an instruction's own writes can lead to before its sequential advance. -/
inductive Writes : Instr → State → State → Prop where
  | register {i : Instr} {s : State} (a b : Byte) (r : RegIx) (v : Byte) (hi : i ∈ registerWriters a b)
      (ha : a = regByte r) : Writes i s (s.setReg r v)
  | output {s : State} (r : RegIx) : Writes (.prn (regByte r)) s (s.emit (s.reg r))
  | flags {s : State} (a b : Byte) (x y : Byte) : Writes (.cmp a b) s (s.setFlags (compareFlags x y))
  | push {s : State} (r : RegIx) (h : 1 ≤ s.sp.toNat) :
      Writes (.push (regByte r)) s
        ((s.setMem (s.mem.write (s.sp.toNat - 1) (s.reg r))).setSp (BitVec.ofNat 8 (s.sp.toNat - 1)))
  | pop {s : State} (r : RegIx) (h : s.sp.toNat < 0xF4) :
      Writes (.pop (regByte r)) s ((s.setReg r (s.cell s.sp.toNat)).setSp (s.sp + 1))
  | jeqNotTaken {s : State} (r : RegIx) (h : s.flags.e = false) : Writes (.jeq (regByte r)) s s
  | jneNotTaken {s : State} (r : RegIx) (h : s.flags.e = true) : Writes (.jne (regByte r)) s s

/-- The ways an instruction can end. -/
inductive Effect : Instr → State → State → Prop where
  /-- HLT below the top of memory, and at it (R80). -/
  | halted {s : State} (h : s.pc.toNat ≤ 254) :
      Effect .hlt s ((s.setRun .halted).setPc (BitVec.ofNat 8 (s.pc.toNat + 1)))
  | haltedAtTop {s : State} (h : s.pc.toNat = 255) : Effect .hlt s (s.setRun .halted)
  /-- An operand byte above 7 (R62). -/
  | badRegister {i : Instr} {s : State} (x : Byte) (hi : i ≠ .hlt) (hx : 7 < x.toNat) :
      Effect i s (s.setRun (.faulted .badRegister x.toNat))
  /-- The writes, then the advance (R154). -/
  | advanced {i : Instr} {s u : State} (hw : Writes i s u) (h : s.pc.toNat + i.width ≤ 255) :
      Effect i s (u.setPc (BitVec.ofNat 8 (s.pc.toNat + i.width)))
  /-- The writes, then the advance fault (R155). -/
  | advanceFault {i : Instr} {s u : State} (hw : Writes i s u) (h : 255 < s.pc.toNat + i.width) :
      Effect i s (u.setRun (.faulted .outOfBounds (s.pc.toNat + i.width)))
  /-- PUSH on a full stack (R111). -/
  | stackFull {s : State} (r : RegIx) (h : s.sp.toNat = 0) :
      Effect (.push (regByte r)) s (s.setRun (.faulted .outOfBounds (-1)))
  /-- POP on an empty stack (R112). -/
  | stackUnderflow {s : State} (r : RegIx) (h : 0xF4 ≤ s.sp.toNat) :
      Effect (.pop (regByte r)) s (s.setRun (.faulted .stackUnderflow s.sp.toNat))
  /-- MOD by zero (R98). -/
  | divideByZero {s : State} (ra rb : RegIx) (h : s.reg rb = 0) :
      Effect (.mod (regByte ra) (regByte rb)) s (s.setRun (.faulted .divideByZero rb.val))
  /-- The taken jumps (R121 to R123). -/
  | jmp {s : State} (r : RegIx) : Effect (.jmp (regByte r)) s (s.setPc (s.reg r))
  | jeqTaken {s : State} (r : RegIx) (h : s.flags.e = true) : Effect (.jeq (regByte r)) s (s.setPc (s.reg r))
  | jneTaken {s : State} (r : RegIx) (h : s.flags.e = false) : Effect (.jne (regByte r)) s (s.setPc (s.reg r))

/-- The writes before an advance touch neither pc nor the run state. -/
theorem Writes.pc_run {i : Instr} {s u : State} (h : Writes i s u) : u.pc = s.pc ∧ u.run = s.run := by
  cases h <;> exact ⟨rfl, rfl⟩

/-- An advance over an instruction's writes is one of the two advancing effects. -/
theorem Writes.effect_of_advance {i : Instr} {s u t : State} (hw : Writes i s u) (h : advance i.width u = .next t) :
    Effect i s t := by
  have hpc := hw.pc_run.1
  rcases advance_cases i.width u with ⟨hle, h'⟩ | ⟨hgt, h'⟩ <;> rw [h'] at h <;> cases h <;> rw [hpc] at *
  · exact .advanced hw hle
  · exact .advanceFault hw hgt

/-- A checked operand gives the effect of what follows, or the bad register. -/
theorem effect_of_checkReg {i : Instr} {a : Byte} {s t : State} {k : RegIx → Result} (hi : i ≠ .hlt)
    (h : checkReg a s k = .next t) (hk : ∀ r, a = regByte r → k r = .next t → Effect i s t) : Effect i s t := by
  rcases checkReg_cases a s k with ⟨r, ha, h'⟩ | ⟨hx, h'⟩ <;> rw [h'] at h
  · exact hk r ha h
  · rw [raise_next h]
    exact .badRegister a hi hx

/-- An ALU instruction gives the effect of applying the ALU's answer, or a bad register. -/
theorem effect_of_runAlu {i : Instr} {op a b : Byte} {s t : State} (hi : i ≠ .hlt) (h : runAlu op a b s = .next t)
    (hk : ∀ ra rb, a = regByte ra → b = regByte rb →
      applyAlu ra rb s (alu op (s.reg ra) (s.reg rb)) = .next t → Effect i s t) : Effect i s t :=
  effect_of_checkReg hi h fun ra ha h' => effect_of_checkReg hi h' fun rb hb h'' => hk ra rb ha hb h''

/-- An ALU instruction whose operation always gives a value writes that value to operand A's register. -/
theorem effect_of_aluValue {i : Instr} {op a b : Byte} {s t : State} (value : Byte → Byte → Byte)
    (hi : i ∈ registerWriters a b) (hne : i ≠ .hlt) (hw : i.width = 3) (hv : ∀ x y, alu op x y = .value (value x y))
    (h : runAlu op a b s = .next t) : Effect i s t := by
  refine effect_of_runAlu hne h fun ra rb ha _ h' => ?_
  rw [hv, applyAlu_value, ← hw] at h'
  exact (Writes.register a b ra _ hi ha).effect_of_advance h'

/-- Everything an instruction can do when it answers a next state. -/
theorem exec_effect {i : Instr} {s t : State} (h : exec i s = .next t) : Effect i s t := by
  cases i with
  | hlt =>
    rcases exec_hlt_cases s with ⟨hp, h'⟩ | ⟨hp, h'⟩ <;> rw [h'] at h <;> cases h
    · exact .halted hp
    · exact .haltedAtTop hp
  | ldi a imm =>
    rw [exec_ldi] at h
    exact effect_of_checkReg (by simp) h fun r ha h' => (Writes.register a imm r imm (by simp) ha).effect_of_advance h'
  | prn a =>
    rw [exec_prn] at h
    refine effect_of_checkReg (by simp) h fun r ha h' => ?_
    subst ha
    exact (Writes.output r).effect_of_advance h'
  | mul a b => exact effect_of_aluValue aluMul (by simp) (by simp) rfl alu_mul h
  | and a b => exact effect_of_aluValue aluAnd (by simp) (by simp) rfl alu_and h
  | or a b => exact effect_of_aluValue aluOr (by simp) (by simp) rfl alu_or h
  | xor a b => exact effect_of_aluValue aluXor (by simp) (by simp) rfl alu_xor h
  | shl a b => exact effect_of_aluValue aluShl (by simp) (by simp) rfl alu_shl h
  | shr a b => exact effect_of_aluValue aluShr (by simp) (by simp) rfl alu_shr h
  | not a b => exact effect_of_aluValue (fun _ y => aluNot y) (by simp) (by simp) rfl alu_not h
  | mod a b =>
    rw [exec_mod] at h
    refine effect_of_runAlu (by simp) h fun ra rb ha hb h' => ?_
    rw [alu_mod] at h'
    split at h'
    · next hz =>
      subst ha hb
      rw [raise_next h']
      exact .divideByZero ra rb hz
    · exact (Writes.register a b ra _ (by simp) ha).effect_of_advance h'
  | cmp a b =>
    rw [exec_cmp] at h
    refine effect_of_runAlu (by simp) h fun ra rb _ _ h' => ?_
    exact (Writes.flags a b (s.reg ra) (s.reg rb)).effect_of_advance h'
  | push a =>
    rcases operandByte_cases a with ⟨r, rfl⟩ | ha
    · rcases exec_push_cases r s with ⟨h1, h'⟩ | ⟨h1, h'⟩ <;> rw [h'] at h
      · exact (Writes.push r h1).effect_of_advance h
      · rw [raise_next h]
        exact .stackFull r h1
    · rw [exec_push_bad s ha] at h
      rw [raise_next h]
      exact .badRegister a (by simp) ha
  | pop a =>
    rcases operandByte_cases a with ⟨r, rfl⟩ | ha
    · rcases exec_pop_cases r s with ⟨h1, h'⟩ | ⟨h1, h'⟩ <;> rw [h'] at h
      · exact (Writes.pop r h1).effect_of_advance h
      · rw [raise_next h]
        exact .stackUnderflow r h1
    · rw [exec_pop_bad s ha] at h
      rw [raise_next h]
      exact .badRegister a (by simp) ha
  | jmp a =>
    rw [exec_jmp] at h
    refine effect_of_checkReg (by simp) h fun r ha h' => ?_
    subst ha
    cases h'
    exact .jmp r
  | jeq a =>
    rw [exec_jeq] at h
    refine effect_of_checkReg (by simp) h fun r ha h' => ?_
    subst ha
    split at h'
    · next he =>
      cases h'
      exact .jeqTaken r he
    · next he => exact (Writes.jeqNotTaken r (by simpa using he)).effect_of_advance h'
  | jne a =>
    rw [exec_jne] at h
    refine effect_of_checkReg (by simp) h fun r ha h' => ?_
    subst ha
    split at h'
    · next he => exact (Writes.jneNotTaken r he).effect_of_advance h'
    · next he =>
      cases h'
      exact .jneTaken r (by simpa using he)

end Sys2Proof.Machine
end

