-- ==== Sys2Proof/Laws/PerInstr.lean ====
section
/-! SUPPORT. The family `EncodingLength`: an instruction's encoding has as many bytes as its row of
spec/30_encoding.md R64 gives it (R65, R68). -/

namespace Sys2Proof.Laws.EncodingLength

/-- The encoding is as long as the row's width. -/
def Statement (i : Instr) : Prop := (encode i).length = i.width

theorem hlt : Statement .hlt := rfl
theorem ldi (a imm : Byte) : Statement (.ldi a imm) := rfl
theorem prn (a : Byte) : Statement (.prn a) := rfl
theorem mul (a b : Byte) : Statement (.mul a b) := rfl
theorem and (a b : Byte) : Statement (.and a b) := rfl
theorem or (a b : Byte) : Statement (.or a b) := rfl
theorem xor (a b : Byte) : Statement (.xor a b) := rfl
theorem shl (a b : Byte) : Statement (.shl a b) := rfl
theorem shr (a b : Byte) : Statement (.shr a b) := rfl
theorem mod (a b : Byte) : Statement (.mod a b) := rfl
theorem not (a b : Byte) : Statement (.not a b) := rfl
theorem cmp (a b : Byte) : Statement (.cmp a b) := rfl
theorem push (a : Byte) : Statement (.push a) := rfl
theorem pop (a : Byte) : Statement (.pop a) := rfl
theorem jmp (a : Byte) : Statement (.jmp a) := rfl
theorem jeq (a : Byte) : Statement (.jeq a) := rfl
theorem jne (a : Byte) : Statement (.jne a) := rfl

end Sys2Proof.Laws.EncodingLength
end

