-- ==== Sys2Proof/Tests/Slice0.lean ====
section
/-! SUPPORT. Tests. Expected results are those of spec/95_test_vectors.md (the row's id stands in each comment) or are read off
the spec's encoding table; then one witness for every statement of Obligations.lean that has hypotheses. -/

namespace Sys2Proof.Tests

open Sys2Proof.Machine Sys2Proof.Claims

/-- The reset state with bytes placed at an address and pc there (95_test_vectors.md, reading conventions). -/
def start (pc : Byte) (bytes : List Byte) : State :=
  (State.reset.setPc pc).setMem (State.reset.mem.storeFrom pc.toNat bytes)

/-- The same with R0 and R1 set. -/
def start01 (pc : Byte) (bytes : List Byte) (r0 r1 : Byte) : State := ((start pc bytes).setReg 0 r0).setReg 1 r1

/-- The next state, if the step gives one. -/
def nextOf : Result → Option State
  | .next t => some t
  | .fault _ => none
  | .refused _ => none

/-- What a field of the state after one step is. -/
def after {α : Type} (s : State) (field : State → α) : Option α := (nextOf (step s)).map field

/-- A step that answers a next state with a checked property. -/
theorem next_of_any {r : Result} {p : State → Bool} (h : (nextOf r).any p = true) : ∃ t, r = .next t ∧ p t = true := by
  cases r with
  | next t => exact ⟨t, rfl, h⟩
  | fault r => cases h
  | refused r => cases h

/-! ### Decoding: a word per constructor, bit by bit from spec/30_encoding.md R64 -/

theorem test_decode_hlt : decode [0b00000001, 0b11111111] = .ok .hlt [0b11111111] := by decide
theorem test_decode_ldi : decode [0b10000010, 0b00000110, 0b00000011] = .ok (.ldi 6 3) [] := by decide
theorem test_decode_prn : decode [0b01000111, 0b00000101] = .ok (.prn 5) [] := by decide
theorem test_decode_mul : decode [0b10100010, 0b00000110, 0b00000011] = .ok (.mul 6 3) [] := by decide
theorem test_decode_and : decode [0b10101000, 0b00000110, 0b00000011] = .ok (.and 6 3) [] := by decide
theorem test_decode_or : decode [0b10101010, 0b00000110, 0b00000011] = .ok (.or 6 3) [] := by decide
theorem test_decode_xor : decode [0b10101011, 0b00000110, 0b00000011] = .ok (.xor 6 3) [] := by decide
theorem test_decode_shl : decode [0b10101100, 0b00000110, 0b00000011] = .ok (.shl 6 3) [] := by decide
theorem test_decode_shr : decode [0b10101101, 0b00000110, 0b00000011] = .ok (.shr 6 3) [] := by decide
theorem test_decode_mod : decode [0b10100100, 0b00000110, 0b00000011] = .ok (.mod 6 3) [] := by decide
theorem test_decode_not : decode [0b01101001, 0b00000110, 0b00000011] = .ok (.not 6 3) [] := by decide
theorem test_decode_cmp : decode [0b10100111, 0b00000110, 0b00000011] = .ok (.cmp 6 3) [] := by decide
theorem test_decode_push : decode [0b01000101, 0b00000101] = .ok (.push 5) [] := by decide
theorem test_decode_pop : decode [0b01000110, 0b00000101] = .ok (.pop 5) [] := by decide
theorem test_decode_jmp : decode [0b01010100, 0b00000101] = .ok (.jmp 5) [] := by decide
theorem test_decode_jeq : decode [0b01010101, 0b00000101] = .ok (.jeq 5) [] := by decide
theorem test_decode_jne : decode [0b01010110, 0b00000101] = .ok (.jne 5) [] := by decide

/-- The table's numbering: bit 0 is the least significant bit of the first byte. -/
theorem test_table_word : decodeTableWord 24 0b000000110000011010000010 = some (.ldi 6 3) ∧
    decodeTableWord 16 0b0000010101000101 = some (.push 5) ∧ decodeTableWord 8 1 = some .hlt := by decide

/-- R66: 0x00, 0xFF and the bytes other LS-8 variants give to ADD, CALL and RET (X1 to X5) are refused by name. -/
theorem test_decode_refuses : [0x00, 0xFF, 0xA0, 0x50, 0x11].all (fun op =>
    decode [op, 0, 1] = .unsupportedOpcode op) = true := by decide

/-- A missing operand byte is named by its offset. -/
theorem test_decode_missing : decode [] = .missingByte 0 ∧ decode [0x45] = .missingByte 1 ∧
    decode [0x69, 0] = .missingByte 2 := by decide

/-! ### WellFormed: an ill-formed term for each check -/

theorem test_wf_refuses_operand_A : [Instr.ldi 8 0, .prn 8, .mul 8 0, .and 8 0, .or 8 0, .xor 8 0, .shl 8 0, .shr 8 0, .mod 8 0,
    .not 8 0, .cmp 8 0, .push 8, .pop 8, .jmp 8, .jeq 8, .jne 255].all (fun i => !i.wellFormed) = true := by decide

theorem test_wf_refuses_operand_B : [Instr.mul 0 8, .and 0 8, .or 0 8, .xor 0 8, .shl 0 8, .shr 0 8, .mod 0 8, .not 0 8,
    .cmp 0 255].all (fun i => !i.wellFormed) = true := by decide

theorem test_wf_accepts : [Instr.hlt, .ldi 7 255, .prn 7, .mul 7 7, .not 0 7, .push 7].all Instr.wellFormed = true := by decide

/-! ### One step, from spec/95_test_vectors.md -/

/-- B1. -/
theorem test_hlt :
    after (start 5 [0x01]) (fun s => (s.pc, s.run)) = some (6, .halted) := by decide

/-- B2. -/
theorem test_hlt_at_top :
    after (start 255 [0x01]) (fun s => (s.pc, s.run)) = some (255, .halted) := by decide

/-- B3. -/
theorem test_ldi :
    after (start 0 [0x82, 3, 0xFF]) (fun s => (s.reg 3, s.pc)) = some (0xFF, 3) := by decide

/-- B7. -/
theorem test_ldi_advance_past_top :
    after (start 253 [0x82, 0, 7]) (fun s => (s.reg 0, s.pc, s.run)) = some (7, 253, .faulted .outOfBounds 256) := by decide

/-- document §8, R82. -/
theorem test_prn :
    after (start01 0 [0x47, 0] 8 0) (fun s => (s.out, s.pc)) = some ([8], 2) := by decide

/-- B9. -/
theorem test_prn_advance_past_top :
    after (start01 254 [0x47, 1] 0 0x2A) (fun s => (s.out, s.run)) = some ([42], .faulted .outOfBounds 256) := by decide

/-- A3. -/
theorem test_mul_truncates :
    after (start01 0 [0xA2, 0, 1] 0xFF 0xFF) (fun s => (s.reg 0, s.reg 1)) = some (1, 0xFF) := by decide

/-- A9. -/
theorem test_and :
    after (start01 0 [0xA8, 0, 1] 0xF0 0x3C) (fun s => s.reg 0) = some (0x30) := by decide

/-- A11. -/
theorem test_or :
    after (start01 0 [0xAA, 0, 1] 0xF0 0x0F) (fun s => s.reg 0) = some (0xFF) := by decide

/-- A13. -/
theorem test_xor :
    after (start01 0 [0xAB, 0, 1] 0xFF 0x0F) (fun s => s.reg 0) = some (0xF0) := by decide

/-- A14. -/
theorem test_xor_keeps_flags :
    after ((start01 0 [0xAB, 0, 0] 0x77 0).setFlags ⟨false, true, false⟩) (fun s => (s.reg 0, s.flags)) = some (0, ⟨false, true, false⟩) := by decide

/-- A17. -/
theorem test_shl_by_8 :
    after (start01 0 [0xAC, 0, 1] 1 8) (fun s => s.reg 0) = some (0) := by decide

/-- A20. -/
theorem test_shl_same_register :
    after (start01 0 [0xAC, 0, 0] 3 0) (fun s => s.reg 0) = some (0x18) := by decide

/-- A21. -/
theorem test_shr :
    after (start01 0 [0xAD, 0, 1] 0x81 1) (fun s => s.reg 0) = some (0x40) := by decide

/-- A23. -/
theorem test_shr_by_8 :
    after (start01 0 [0xAD, 0, 1] 0x80 8) (fun s => s.reg 0) = some (0) := by decide

/-- A25. -/
theorem test_mod :
    after (start01 0 [0xA4, 0, 1] 0x11 5) (fun s => s.reg 0) = some (2) := by decide

/-- A30. -/
theorem test_mod_by_zero :
    after (start01 0 [0xA4, 0, 1] 9 0) (fun s => (s.reg 0, s.pc, s.run)) = some (9, 0, .faulted .divideByZero 1) := by decide

/-- A36. -/
theorem test_not_reads_B :
    after (start01 0 [0x69, 1, 0] 0xFF 0x12) (fun s => (s.reg 0, s.reg 1, s.pc)) = some (0xFF, 0, 3) := by decide

/-- A37. -/
theorem test_not_operand_B_out_of_range :
    after (start 254 [0x69, 0]) (fun s => (s.reg 0, s.run)) = some (0, .faulted .outOfBounds 256) := by decide

/-- A40. -/
theorem test_cmp_clears_old_flag :
    after ((start01 0 [0xA7, 0, 1] 7 7).setFlags ⟨false, true, false⟩) (fun s => s.flags) = some (⟨true, false, false⟩) := by decide

/-- A42. -/
theorem test_cmp_unsigned :
    after (start01 0 [0xA7, 0, 1] 0x80 0x7F) (fun s => s.flags) = some (⟨false, true, false⟩) := by decide

/-- S1. -/
theorem test_push :
    after (start01 0 [0x45, 0] 0x2A 0) (fun s => (s.sp, s.mem.read 0xF3, s.pc)) = some (0xF3, 0x2A, 2) := by decide

/-- S3. -/
theorem test_push_full :
    after ((start01 0 [0x45, 0] 9 0).setSp 0) (fun s => (s.sp, s.run)) = some (0, .faulted .outOfBounds (-1)) := by decide

/-- S7. -/
theorem test_pop :
    after (((start 0 [0x46, 1]).setSp 0xF3).setMem ((start 0 [0x46, 1]).mem.write 0xF3 0x2A)) (fun s => (s.reg 1, s.sp, s.mem.read 0xF3)) = some (0x2A, 0xF4, 0x2A) := by decide

/-- S8. -/
theorem test_pop_above_sentinel :
    after ((start 0 [0x46, 0]).setSp 0xF5) (fun s => (s.sp, s.run)) = some (0xF5, .faulted .stackUnderflow 245) := by decide

/-- J1. -/
theorem test_jmp :
    after ((start 0 [0x54, 3]).setReg 3 0x10) (fun s => (s.pc, s.run)) = some (0x10, .running) := by decide

/-- J3. -/
theorem test_jmp_operand_out_of_range :
    after (start 255 [0x54]) (fun s => (s.pc, s.run)) = some (255, .faulted .outOfBounds 256) := by decide

/-- J5. -/
theorem test_jeq_taken :
    after (((start 12 [0x55, 4]).setReg 4 0x10).setFlags ⟨true, false, false⟩) (fun s => s.pc) = some (16) := by decide

/-- J8. -/
theorem test_jeq_not_taken_at_254 :
    after (start 254 [0x55, 0]) (fun s => (s.pc, s.run)) = some (254, .faulted .outOfBounds 256) := by decide

/-- J10. -/
theorem test_jne_taken :
    after (((start 20 [0x56, 3]).setReg 3 12).setFlags ⟨false, true, false⟩) (fun s => s.pc) = some (12) := by decide

/-- J13. -/
theorem test_jne_bad_register_not_taken :
    after ((start 0 [0x56, 9]).setFlags ⟨true, false, false⟩) (fun s => (s.pc, s.run)) = some (0, .faulted .badRegister 9) := by decide

/-- A46. -/
theorem test_bad_register_A_before_B :
    after (start 0 [0xA2, 9, 10]) (fun s => s.run) = some (.faulted .badRegister 9) := by decide

/-- X6. -/
theorem test_unsupported_opcode_at_top :
    after (start 255 [0xFE]) (fun s => s.run) = some (.faulted .unsupportedOpcode 254) := by decide

/-- V6: 257 bytes are refused. -/
theorem test_load_too_large : load (List.replicate 257 0) = .programTooLarge 257 := by
  rw [load, if_neg (by rw [List.length_replicate]; decide), List.length_replicate]

/-- V7b: UnsupportedOpcode on 0xA0 at pc = 3 leaves R0 = 5. -/
theorem test_unsupported_opcode_is_precise :
    after (start01 3 [0xA0, 0, 0] 5 0) (fun s => (s.reg 0, s.pc, s.run)) = some (5, 3, .faulted .unsupportedOpcode 0xA0) := by
  decide

/-- The host's placement at reset: the placed LDI runs as the first instruction. -/
theorem test_with_fetch_word :
    after (State.reset.withFetchWord 24 0b111111110000011110000010) (fun s => (s.reg 7, s.pc)) = some (0xFF, 3) := by decide

/-- R153: no step from Halted. -/
theorem test_no_step_from_halted : nextOf (step (State.reset.setRun .halted)) = none := by decide

/-! ### Witnesses: states and operands that meet the hypotheses of each statement -/

/-- The hypotheses of `WritesThenAdvances w` at both ends: the last pc that advances and the one that faults. -/
abbrev advanceWitness (w : Nat) (last top : Byte) : Prop := last.toNat + w = 255 ∧ top.toNat + w = 256

/-- The hypotheses of `OperandAboveMemoryFaults` at pc. -/
abbrev aboveWitness (op : Byte) (w : Nat) (pc : Byte) : Prop :=
  (start pc [op]).run = .running ∧ (start pc [op]).mem.read (start pc [op]).pc.toNat = op ∧ 256 < (start pc [op]).pc.toNat + w

/-- The hypotheses of `BadRegisterFaults` and `BadRegistersFault`, at 8 and 255. -/
abbrev badWitness : Prop := 7 < (8 : Byte).toNat ∧ 7 < (255 : Byte).toNat ∧ (7 : Byte).toNat ≤ 7

/-- All the hypotheses a width-3 instruction's statement shares, and a width-2 one's. -/
abbrev witness3 (op : Byte) : Prop :=
  advanceWitness 3 252 253 ∧ badWitness ∧ aboveWitness op 3 254 ∧ aboveWitness op 3 255
abbrev witness2 (op : Byte) : Prop := advanceWitness 2 253 254 ∧ badWitness ∧ aboveWitness op 2 255

theorem witness_DecodeAndEncodeAgree : decode [0x82, 1, 2, 9] = .ok (.ldi 1 2) [9] ∧
    [0x82, 1, 2, 9] = encode (.ldi 1 2) ++ [9] := by decide

theorem witness_DecodeRejectsExactlyTheRest : decode [0xFF] = .unsupportedOpcode 0xFF ∧ decode [] = .missingByte 0 ∧
    decode [0x45] = .missingByte 1 ∧ decode [0x82] = .missingByte 1 ∧ decode [0x82, 0] = .missingByte 2 := by decide

theorem witness_TableWordsDecodeAndRun : State.reset.run = .running ∧
    (start 253 []).pc.toNat + (Instr.ldi 0 0).width = 256 ∧ (start 254 []).pc.toNat + (Instr.push 0).width = 256 ∧
    (start 255 []).pc.toNat + Instr.hlt.width = 256 := by decide

theorem witness_StepRunsTheFetchedInstruction :
    (start 253 [0x82, 1, 7]).run = .running ∧ InstructionAtPc (start 253 [0x82, 1, 7]) (.ldi 1 7) ∧
    InstructionAtPc (start 255 [0x01]) .hlt ∧
    decode (fetchBytes (start 253 [0x82, 1, 7])) = .ok (.ldi 1 7) [] :=
  ⟨rfl, ⟨by decide, by decide⟩, ⟨by decide, by decide⟩, by decide⟩

theorem witness_RunningCoreAlwaysSteps : State.reset.run = .running := rfl

theorem witness_HaltedAndFaultedTakeNoStep : (State.reset.setRun .halted).run = .halted ∧
    (State.reset.setRun (.faulted .badRegister 8)).run = .faulted .badRegister 8 := ⟨rfl, rfl⟩

theorem witness_UnsupportedOpcodeFaults : State.reset.run = .running ∧ State.reset.mem.read State.reset.pc.toNat ∉ opcodes ∧
    (start 255 [0xFE]).mem.read (start 255 [0xFE]).pc.toNat ∉ opcodes ∧
    (0x56 : Byte) ∈ opcodes ∧ (Instr.mul 7 7).wellFormed = true ∧ Instr.hlt.wellFormed = true ∧
    (nextOf (exec (.mul 7 7) State.reset)).isSome = true := by decide

theorem witness_HltHalts : (start 254 [0x01]).pc.toNat ≤ 254 ∧ (start 255 [0x01]).pc.toNat = 255 ∧
    (start 255 [0x01]).run = .running ∧ (start 255 [0x01]).mem.read (start 255 [0x01]).pc.toNat = 0x01 := by decide

theorem witness_LdiLoadsImmediate : witness3 0x82 := by decide
theorem witness_PrnEmits : witness2 0x47 := by decide
theorem witness_MulWritesProductModulo256 : witness3 0xA2 := by decide

theorem witness_AndOrXorWriteBitwiseResults : witness3 0xA8 ∧ witness3 0xAA ∧ witness3 0xAB ∧
    (∀ k < 8, (0x30 : Byte).getLsbD k =
      (((start01 0 [] 0xF0 0x3C).reg 0).getLsbD k && ((start01 0 [] 0xF0 0x3C).reg 1).getLsbD k)) ∧
    (∀ k < 8, (0xFC : Byte).getLsbD k =
      (((start01 0 [] 0xF0 0x3C).reg 0).getLsbD k || ((start01 0 [] 0xF0 0x3C).reg 1).getLsbD k)) ∧
    (∀ k < 8, (0xCC : Byte).getLsbD k =
      (((start01 0 [] 0xF0 0x3C).reg 0).getLsbD k != ((start01 0 [] 0xF0 0x3C).reg 1).getLsbD k)) := by decide

theorem witness_ShiftsUseTheWholeAmount : witness3 0xAC ∧ witness3 0xAD := by decide

theorem witness_ModWritesRemainderOrFaults : witness3 0xA4 ∧ ((start01 0 [] 9 1).reg 1).toNat ≠ 0 ∧
    ((start01 0 [] 9 0).reg 1).toNat = 0 := by decide

theorem witness_NotWritesComplement : witness3 0x69 ∧
    (∀ k < 8, (0xF0 : Byte).getLsbD k = !((start01 0 [] 0x0F 0).reg 0).getLsbD k) := by decide

theorem witness_CmpSetsExactlyOneFlag : witness3 0xA7 ∧
    ((start01 0 [] 0xFF 0xFF).reg 0).toNat = ((start01 0 [] 0xFF 0xFF).reg 1).toNat ∧
    ((start01 0 [] 0x80 0x7F).reg 1).toNat < ((start01 0 [] 0x80 0x7F).reg 0).toNat ∧
    ((start01 0 [] 0x7F 0x80).reg 0).toNat < ((start01 0 [] 0x7F 0x80).reg 1).toNat := by decide

theorem witness_UnsupportedOperationOutsideTheAluSet : (0x82 : Byte) ∉ aluOperations ∧ (0xA7 : Byte) ∈ aluOperations ∧
    ∃ t, step State.reset = .next t := by
  refine ⟨by decide, by decide, ?_⟩
  obtain ⟨t, h, _⟩ := next_of_any (r := step State.reset) (p := fun _ => true) (by decide)
  exact ⟨t, h⟩

theorem witness_PushStoresBelowSp : witness2 0x45 ∧ 1 ≤ (State.reset.setSp 1).sp.toNat ∧
    (State.reset.setSp 0).sp.toNat = 0 := by decide

theorem witness_PopLoadsAtSp : witness2 0x46 ∧ (State.reset.setSp 0xF3).sp.toNat < 0xF4 ∧
    0xF4 ≤ (State.reset.setSp 0xF4).sp.toNat ∧ 0xF4 ≤ (State.reset.setSp 0xFF).sp.toNat := by decide

theorem witness_PushThenPopRoundTrips : (∃ s : State, 1 = s.sp.toNat ∧ s.sp.toNat ≤ 0xF4 ∧ s.pc.toNat = 251) ∧
    (∃ s : State, 1 ≤ s.sp.toNat ∧ s.sp.toNat = 0xF4 ∧ s.pc.toNat ≤ 251) :=
  ⟨⟨(start 251 []).setSp 1, by decide⟩, ⟨State.reset, by decide⟩⟩

/-- PUSH at pc = 0xF1 writes 0xF3, the byte the next fetch reads first. -/
theorem witness_PushedByteIsFetchedNext : ∃ t, exec (.push (regByte 0)) (start01 0xF1 [0x45, 0] 1 0) = .next t ∧
    1 ≤ (start01 0xF1 [0x45, 0] 1 0).sp.toNat ∧ (0 : Nat) < 3 ∧
    t.pc.toNat + 0 = (start01 0xF1 [0x45, 0] 1 0).sp.toNat - 1 := by
  obtain ⟨t, h, hp⟩ := next_of_any (r := exec (.push (regByte 0)) (start01 0xF1 [0x45, 0] 1 0))
    (p := fun t => decide (t.pc.toNat = 0xF3)) (by decide)
  exact ⟨t, h, by decide, by decide, of_decide_eq_true hp⟩

theorem witness_JmpSetsPc : badWitness ∧ aboveWitness 0x54 2 255 := by decide

theorem witness_JeqJumpsOnEqual : witness2 0x55 ∧ (State.reset.setFlags ⟨true, false, false⟩).flags.e = true ∧
    State.reset.flags.e = false := by decide

theorem witness_JneJumpsOnNotEqual : witness2 0x56 ∧ (State.reset.setFlags ⟨true, false, false⟩).flags.e = true ∧
    State.reset.flags.e = false := by decide

/-- Each of the nine completes at pc 252 and faults at 253, both next states; register 0 is not the destination 7. -/
theorem witness_RegisterWritersFrame : regByte 0 ≠ (7 : Byte) ∧
    [Instr.ldi 7 1, .mul 7 1, .and 7 1, .or 7 1, .xor 7 1, .shl 7 1, .shr 7 1, .mod 7 1, .not 7 1].all (fun i =>
      (nextOf (exec i (start01 252 [] 5 1))).isSome && (nextOf (exec i (start01 253 [] 5 1))).isSome) = true := by decide

theorem witness_NonWritersFrame : Instr.hlt ≠ .cmp 7 1 ∧ Instr.hlt ≠ .prn 7 ∧
    [Instr.hlt, .prn 7, .cmp 7 1, .jmp 7, .jeq 7, .jne 7].all (fun i =>
      (nextOf (exec i (start01 252 [] 5 1))).isSome && (nextOf (exec i (start01 255 [] 5 1))).isSome) = true := by decide

/-- PUSH at sp = 1 and sp = 0; address 1 is not the one stored to. -/
theorem witness_PushFrame : ((1 : Nat) : Int) ≠ pushAddress (State.reset.setSp 1) ∧
    (nextOf (exec (.push 7) (State.reset.setSp 1))).isSome = true ∧
    (nextOf (exec (.push 7) (State.reset.setSp 0))).isSome = true := by decide

theorem witness_PopFrame : regByte 0 ≠ (7 : Byte) ∧ (nextOf (exec (.pop 7) (State.reset.setSp 0xF3))).isSome = true ∧
    (nextOf (exec (.pop 7) State.reset)).isSome = true := by decide

theorem witness_MemoryChangesOnlyByPush : ∃ t, step (start01 0 [0x45, 0] 9 0) = .next t ∧
    t.mem.read 0xF3 ≠ (start01 0 [0x45, 0] 9 0).mem.read 0xF3 := by
  obtain ⟨t, h, hp⟩ := next_of_any (r := step (start01 0 [0x45, 0] 9 0)) (p := fun t => decide (t.mem.read 0xF3 = 9)) (by decide)
  refine ⟨t, h, ?_⟩
  rw [of_decide_eq_true hp]
  decide

theorem witness_FlagsChangeOnlyByCmp : (nextOf (step State.reset)).isSome = true ∧
    State.reset.mem.read State.reset.pc.toNat ≠ 0xA7 ∧ load [] = .launched (launchState []) ∧
    State.reset.flags.e = false ∧ (start 253 []).pc.toNat + 2 ≤ 255 := by decide

theorem witness_StackPointerChangesOnlyByPushPop : ∃ t, step (start 0 [0x45, 0]) = .next t ∧ t.sp ≠ (start 0 [0x45, 0]).sp := by
  obtain ⟨t, h, hp⟩ := next_of_any (r := step (start 0 [0x45, 0])) (p := fun t => decide (t.sp ≠ 0xF4)) (by decide)
  exact ⟨t, h, of_decide_eq_true hp⟩

theorem witness_OutputGrowsOnlyByPrn : after (start01 254 [0x47, 0] 8 0) (·.out) = some [8] := by decide

theorem witness_HaltOnlyByHlt : after (start 255 [0x01]) (·.run) = some .halted ∧
    after (start 0 [0x54, 0]) (·.run) = some .running := by decide

/-- A next state that is Faulted: before the writes, and by the advance after them. -/
theorem witness_FaultEntryKeepsPcAndEndsTheRun : ∃ t, step State.reset = .next t ∧ t.run = .faulted .unsupportedOpcode 0 := by
  obtain ⟨t, h, hp⟩ := next_of_any (r := step State.reset) (p := fun t => decide (t.run = .faulted .unsupportedOpcode 0))
    (by decide)
  exact ⟨t, h, of_decide_eq_true hp⟩

theorem witness_FaultsBeforeTheWritesArePrecise : ∃ t, step (start 253 [0x82, 0, 7]) = .next t ∧
    t.run = .faulted .outOfBounds 256 := by
  obtain ⟨t, h, hp⟩ := next_of_any (r := step (start 253 [0x82, 0, 7]))
    (p := fun t => decide (t.run = .faulted .outOfBounds 256)) (by decide)
  exact ⟨t, h, of_decide_eq_true hp⟩

/-- A fault of each of the four kinds, from Running states. -/
theorem witness_FaultKindsByInstruction : State.reset.run = .running ∧
    (nextOf (exec (.jmp 8) State.reset)).map (·.run) = some (.faulted .badRegister 8) ∧
    (nextOf (exec (.push 0) (State.reset.setSp 0))).map (·.run) = some (.faulted .outOfBounds (-1)) ∧
    (nextOf (exec (.pop 0) State.reset)).map (·.run) = some (.faulted .stackUnderflow 0xF4) ∧
    (nextOf (exec (.mod 0 7) State.reset)).map (·.run) = some (.faulted .divideByZero 7) := by decide

theorem witness_GreaterAndLessAreNeverRead : (nextOf (step (start 0 [0x55, 0]))).isSome = true := by decide

theorem witness_OutputIsNeverReadBack : (nextOf (step (start01 0 [0x47, 0] 8 0))).isSome = true := by decide

/-- POP at 0 reading the cell at 0xF3; the cell just above its bytes and the one at 0xF4 are others. -/
theorem witness_OnlyOwnBytesAndPoppedCellAreRead :
    InstructionAtPc ((start 0 [0x46, 1]).setSp 0xF3) (.pop 1) ∧
    (nextOf (step ((start 0 [0x46, 1]).setSp 0xF3))).isSome = true ∧
    (((start 0 [0x46, 1]).setSp 0xF3).pc.toNat + (Instr.pop 1).width ≤ 2) ∧
    (2 : Nat) ≠ ((start 0 [0x46, 1]).setSp 0xF3).sp.toNat ∧ (0 : Nat) < (start 1 [0x46, 1]).pc.toNat :=
  ⟨⟨by decide, by decide⟩, by decide, by decide, by decide, by decide⟩

theorem witness_HighMemoryIsNeverWritten : (start 0 [0x45, 0]).sp.toNat ≤ 0xF4 ∧
    (nextOf (step (start 0 [0x45, 0]))).isSome = true ∧ 0xF4 ≤ (0xF4 : Nat) := by decide

theorem witness_StepKeepsInvariant : (start 0 [0x45, 0]).Inv ∧ (nextOf (step (start 0 [0x45, 0]))).isSome = true := by decide

theorem witness_ReachableStatesMeetInvariant : Reachable (launchState []) ∧
    Reachable (resetInput ((launchState []).setRun (.faulted .unsupportedOpcode 0))) := by
  have h : Reachable (launchState []) := .launched (image := []) (by decide)
  exact ⟨h, .restarted (.ran h (t := (launchState []).setRun (.faulted .unsupportedOpcode 0)) rfl) (by decide)⟩

theorem witness_LaunchHoldsTheImage : ([] : List Byte).length ≤ 256 ∧ (List.replicate 256 (1 : Byte)).length ≤ 256 ∧
    0 < [(7 : Byte)].length :=
  ⟨Nat.zero_le _, by rw [List.length_replicate], by decide⟩

theorem witness_OversizedImageIsNotLoaded : 256 < (List.replicate 257 (0 : Byte)).length := by
  rw [List.length_replicate]; decide

theorem witness_CanonicalMemoriesWithEqualReadsAreEqual :
    Memory.wf (Memory.write (Memory.write [] 255 1) 0 2) ∧ Memory.wf (Memory.write (Memory.write [] 0 2) 255 1) ∧
    ∀ a, (Memory.write (Memory.write [] 255 1) 0 2).read a = (Memory.write (Memory.write [] 0 2) 255 1).read a := by
  refine ⟨by decide, by decide, fun a => ?_⟩
  simp only [Memory.read_write, Memory.read_nil]
  by_cases h : a = 0
  · simp [h]
  · simp [h]

theorem witness_FlagByteLayout : (3 : Nat) ≤ 3 ∧ (⟨true, false, true⟩ : Flags).flByte = 0b00000101 := by decide

theorem witness_RegistersAreIndependent : (7 : Byte).toNat = (7 : RegIx).val ∧ (start 252 []).pc.toNat ≤ 252 ∧ (0 : RegIx) ≠ 7 ∧
    ((start 253 []).setSp 1).pc.toNat ≤ 253 ∧ 1 ≤ ((start 253 []).setSp 1).sp.toNat := by decide

theorem witness_ImmediateIsTheWholeByte : (start 252 []).pc.toNat ≤ 252 ∧ (start 0 []).pc.toNat ≤ 252 := by decide

theorem witness_MemoryAccessesHaveNoSideEffect : (0 : Nat) ≤ 255 ∧ (255 : Nat) ≤ 255 ∧ (254 : Nat) ≠ 255 := by decide

end Sys2Proof.Tests
end

section
/-! SUPPORT. What each field of the state can become when an instruction answers a next state: one lemma per field, by cases
on `Writes` and `Effect`. The frames and the invariant are read off these. -/

namespace Sys2Proof.Machine

/-! ### Control updates: pc and run alone -/

/-- `t` is `u` but for pc and run. -/
structure SameData (u t : State) : Prop where
  regs : t.regs = u.regs
  sp : t.sp = u.sp
  flags : t.flags = u.flags
  out : t.out = u.out
  mem : t.mem = u.mem

theorem SameData.reg {u t : State} (h : SameData u t) (r : RegIx) : t.reg r = u.reg r := by
  simp only [State.reg, h.regs]

theorem sameData_setPc (u : State) (v : Byte) : SameData u (u.setPc v) := ⟨rfl, rfl, rfl, rfl, rfl⟩

theorem sameData_setRun (u : State) (r : RunState) : SameData u (u.setRun r) := ⟨rfl, rfl, rfl, rfl, rfl⟩

theorem sameData_halted (u : State) (r : RunState) (v : Byte) : SameData u ((u.setRun r).setPc v) :=
  ⟨rfl, rfl, rfl, rfl, rfl⟩

/-- Beside its own writes, if it comes to them, an instruction changes pc and run alone. -/
theorem Effect.writes_sameData {i : Instr} {s t : State} (h : Effect i s t) :
    ∃ u, (u = s ∨ Writes i s u) ∧ SameData u t := by
  cases h with
  | advanced hw _ => exact ⟨_, .inr hw, sameData_setPc _ _⟩
  | advanceFault hw _ => exact ⟨_, .inr hw, sameData_setRun _ _⟩
  | halted _ => exact ⟨s, .inl rfl, sameData_halted _ _ _⟩
  | haltedAtTop _ | badRegister _ _ _ | stackFull _ _ | stackUnderflow _ _ | divideByZero _ _ _ =>
    exact ⟨s, .inl rfl, sameData_setRun _ _⟩
  | jmp _ | jeqTaken _ _ | jneTaken _ _ => exact ⟨s, .inl rfl, sameData_setPc _ _⟩

/-! ### One lemma per field -/

variable {i : Instr} {s t : State}

/-- Registers are written by the register writers and POP, and only the one operand A names (spec/10_state.md R21). -/
theorem exec_reg_cases (h : exec i s = .next t) :
    (∀ r, t.reg r = s.reg r) ∨
    ∃ a b, (i ∈ registerWriters a b ∨ i = .pop a) ∧ ∀ r, regByte r ≠ a → t.reg r = s.reg r := by
  obtain ⟨u, rfl | hw, hd⟩ := (exec_effect h).writes_sameData
  · exact .inl hd.reg
  · simp only [hd.reg]
    cases hw with
    | register a b r v hi ha =>
      subst ha
      exact .inr ⟨_, b, .inl hi, fun r' hr => State.reg_setReg_other s r r' v fun e => hr (e ▸ rfl)⟩
    | pop r _ =>
      exact .inr ⟨_, 0, .inr rfl, fun r' hr => State.reg_setReg_other s r r' _ fun e => hr (e ▸ rfl)⟩
    | output _ | flags _ _ _ _ | push _ _ | jeqNotTaken _ _ | jneNotTaken _ _ => exact .inl fun _ => rfl

theorem sp_pred_toNat {s : State} (h : 1 ≤ s.sp.toNat) : (BitVec.ofNat 8 (s.sp.toNat - 1)).toNat + 1 = s.sp.toNat := by
  have := s.sp.isLt
  rw [BitVec.toNat_ofNat]
  omega

/-- sp is moved by PUSH, one down, and by POP below the sentinel, one up; neither wraps (R24). -/
theorem exec_sp_cases (h : exec i s = .next t) :
    t.sp = s.sp ∨ (∃ a, i = .push a ∧ t.sp.toNat + 1 = s.sp.toNat) ∨
    (∃ a, i = .pop a ∧ s.sp.toNat < 0xF4 ∧ t.sp.toNat = s.sp.toNat + 1) := by
  obtain ⟨u, rfl | hw, hd⟩ := (exec_effect h).writes_sameData
  · exact .inl hd.sp
  · rw [hd.sp]
    cases hw with
    | push r h1 => exact .inr (.inl ⟨_, rfl, sp_pred_toNat h1⟩)
    | pop r h1 => exact .inr (.inr ⟨_, rfl, h1, sp_succ_toNat h1⟩)
    | register _ _ _ _ _ _ | output _ | flags _ _ _ _ | jeqNotTaken _ _ | jneNotTaken _ _ => exact .inl rfl

/-- The flags are written by CMP, with the outcome of a comparison (R25). -/
theorem exec_flags_cases (h : exec i s = .next t) :
    t.flags = s.flags ∨ ∃ a b x y, i = .cmp a b ∧ t.flags = compareFlags x y := by
  obtain ⟨u, rfl | hw, hd⟩ := (exec_effect h).writes_sameData
  · exact .inl hd.flags
  · rw [hd.flags]
    cases hw with
    | flags a b x y => exact .inr ⟨a, b, x, y, rfl, rfl⟩
    | register _ _ _ _ _ _ | output _ | push _ _ | pop _ _ | jeqNotTaken _ _ | jneNotTaken _ _ => exact .inl rfl

/-- The output is written by PRN, which appends the register operand A names (spec/20_memory.md R52). -/
theorem exec_out_cases (h : exec i s = .next t) :
    t.out = s.out ∨ ∃ r, i = .prn (regByte r) ∧ t.out = s.out ++ [s.reg r] := by
  obtain ⟨u, rfl | hw, hd⟩ := (exec_effect h).writes_sameData
  · exact .inl hd.out
  · rw [hd.out]
    cases hw with
    | output r => exact .inr ⟨r, rfl, rfl⟩
    | register _ _ _ _ _ _ | flags _ _ _ _ | push _ _ | pop _ _ | jeqNotTaken _ _ | jneNotTaken _ _ => exact .inl rfl

/-- Memory is written by PUSH, at sp - 1 (spec/20_memory.md R40, spec/42_stack.md R111). -/
theorem exec_mem_cases (h : exec i s = .next t) :
    t.mem = s.mem ∨
    ∃ r, i = .push (regByte r) ∧ 1 ≤ s.sp.toNat ∧ t.mem = s.mem.write (s.sp.toNat - 1) (s.reg r) := by
  obtain ⟨u, rfl | hw, hd⟩ := (exec_effect h).writes_sameData
  · exact .inl hd.mem
  · rw [hd.mem]
    cases hw with
    | push r h1 => exact .inr ⟨r, rfl, h1, rfl⟩
    | register _ _ _ _ _ _ | output _ | flags _ _ _ _ | pop _ _ | jeqNotTaken _ _ | jneNotTaken _ _ => exact .inl rfl

/-- Every other instruction than PUSH leaves memory as it is. -/
theorem exec_mem_of_ne_push (h : exec i s = .next t) (hi : ∀ a, i ≠ .push a) : t.mem = s.mem :=
  (exec_mem_cases h).resolve_right fun ⟨_, he, _⟩ => hi _ he

/-- A register writer has one operand A. -/
theorem registerWriters_operandA {a b a' b' : Byte} (h : i ∈ registerWriters a b) (h' : i ∈ registerWriters a' b') :
    a = a' := by
  simp only [registerWriters, List.mem_cons, List.not_mem_nil, or_false] at h
  rcases h with rfl | rfl | rfl | rfl | rfl | rfl | rfl | rfl | rfl <;> simp_all

end Sys2Proof.Machine
end

section
/-! PROOFS. The frames of 10_state.md. -/

namespace Sys2Proof.Machine

/-- Settles O28: the field lemmas, with no flag, sp, output or memory writer among the nine. -/
theorem registerWritersFrame : Obligations.RegisterWritersFrame := by
  intro a b s t i hi h
  refine ⟨fun r hr => ?_, ?_, ?_, ?_, fun x => ?_⟩
  · rcases exec_reg_cases h with hreg | ⟨a', b', hw | rfl, hreg⟩
    · exact hreg r
    · exact hreg r (registerWriters_operandA hi hw ▸ hr)
    · simp at hi
  · exact (exec_sp_cases h).resolve_right (by rintro (⟨_, rfl, _⟩ | ⟨_, rfl, _⟩) <;> simp at hi)
  · exact (exec_flags_cases h).resolve_right (by rintro ⟨_, _, _, _, rfl, _⟩; simp at hi)
  · exact (exec_out_cases h).resolve_right (by rintro ⟨_, rfl, _⟩; simp at hi)
  · rw [exec_mem_of_ne_push h (by rintro _ rfl; simp at hi)]

/-- Settles O29: the field lemmas, with CMP the only flag writer and PRN the only output writer among the six. -/
theorem nonWritersFrame : Obligations.NonWritersFrame := by
  intro a b s t i hi h
  refine ⟨?_, ?_, fun hcmp => ?_, fun hprn => ?_, fun x => ?_⟩
  · refine (exec_reg_cases h).resolve_right ?_
    rintro ⟨a', b', hw | rfl, _⟩
    · simp only [List.mem_cons, List.not_mem_nil, or_false] at hi
      rcases hi with rfl | rfl | rfl | rfl | rfl | rfl <;> simp at hw
    · simp at hi
  · exact (exec_sp_cases h).resolve_right (by rintro (⟨_, rfl, _⟩ | ⟨_, rfl, _⟩) <;> simp at hi)
  · exact (exec_flags_cases h).resolve_right (by rintro ⟨_, _, _, _, rfl, _⟩; simp_all)
  · exact (exec_out_cases h).resolve_right (by rintro ⟨_, rfl, _⟩; simp_all)
  · rw [exec_mem_of_ne_push h (by rintro _ rfl; simp at hi)]

/-- Settles O30: PUSH's store is at sp - 1, which is `pushAddress`. -/
theorem pushFrame : Obligations.PushFrame := by
  intro a s t h
  refine ⟨?_, ?_, ?_, ?_, fun x hx => ?_⟩
  · exact (exec_reg_cases h).resolve_right (by simp)
  · exact (exec_flags_cases h).resolve_right (by simp)
  · exact (exec_out_cases h).resolve_right (by simp)
  · rcases exec_sp_cases h with hsp | ⟨_, _, hsp⟩ | ⟨_, hi, _⟩
    · exact .inl hsp
    · exact .inr (by simp only [pushAddress]; omega)
    · cases hi
  · rcases exec_mem_cases h with hm | ⟨r, _, h1, hm⟩
    · rw [hm]
    · rw [hm, Memory.read_write_other]
      simp only [pushAddress] at hx
      omega

/-- Settles O31: POP writes operand A's register and moves sp one up. -/
theorem popFrame : Obligations.PopFrame := by
  intro a s t h
  refine ⟨fun r hr => ?_, ?_, ?_, ?_, fun x => ?_⟩
  · rcases exec_reg_cases h with hreg | ⟨a', b', hw | hi, hreg⟩
    · exact hreg r
    · simp at hw
    · exact hreg r (by cases hi; exact hr)
  · exact (exec_flags_cases h).resolve_right (by simp)
  · exact (exec_out_cases h).resolve_right (by simp)
  · rcases exec_sp_cases h with hsp | ⟨_, hi, _⟩ | ⟨_, _, _, hsp⟩
    · exact .inl hsp
    · cases hi
    · exact .inr hsp
  · rw [exec_mem_of_ne_push h (by simp)]

end Sys2Proof.Machine
end

section
/-! SUPPORT. What a successful decode says about the bytes at pc, and where a fetch runs out of memory. -/

namespace Sys2Proof

variable {op : Byte} {i : Instr} {bytes rest : List Byte}

theorem encode_of_take_f1 {j : Instr} (he : encode j = [op]) (h : (OperandForm.f1 j).take bytes = .ok i rest) :
    op :: bytes = encode i ++ rest := by
  cases h
  rw [he]; rfl

theorem encode_of_take_f2 {mk : Byte → Instr} (he : ∀ a, encode (mk a) = [op, a])
    (h : (OperandForm.f2 mk).take bytes = .ok i rest) : op :: bytes = encode i ++ rest := by
  match bytes, h with
  | a :: _, h =>
    cases h
    rw [he]; rfl

theorem encode_of_take_f3 {mk : Byte → Byte → Instr} (he : ∀ a b, encode (mk a b) = [op, a, b])
    (h : (OperandForm.f3 mk).take bytes = .ok i rest) : op :: bytes = encode i ++ rest := by
  match bytes, h with
  | a :: b :: _, h =>
    cases h
    rw [he]; rfl

/-- The bytes one row of the map consumes are the encoding of the instruction it makes (R60, R64). -/
theorem encode_of_take {row : OpcodeRow} (hrow : row ∈ opcodeMap) (h : row.form.take bytes = .ok i rest) :
    row.opcode :: bytes = encode i ++ rest := by
  simp only [opcodeMap, List.mem_cons, List.not_mem_nil, or_false] at hrow
  rcases hrow with rfl | rfl | rfl | rfl | rfl | rfl | rfl | rfl | rfl | rfl | rfl | rfl | rfl | rfl | rfl | rfl | rfl
  · exact encode_of_take_f1 rfl h
  · exact encode_of_take_f3 (fun _ _ => rfl) h
  · exact encode_of_take_f2 (fun _ => rfl) h
  iterate 9 exact encode_of_take_f3 (fun _ _ => rfl) h
  iterate 5 exact encode_of_take_f2 (fun _ => rfl) h

/-- What decodes to an instruction starts with its encoding (R60, R65). -/
theorem encode_of_decode (h : decode bytes = .ok i rest) :
    bytes = encode i ++ rest := by
  cases bytes with
  | nil => cases h
  | cons op bytes =>
    rw [decode_cons] at h
    cases hl : lookupOpcode op with
    | none => rw [hl] at h; cases h
    | some row =>
      rw [hl] at h
      obtain ⟨hrow, rfl⟩ := lookup_mem hl
      exact encode_of_take hrow h

theorem encode_length (i : Instr) : (encode i).length = i.width := by cases i <;> rfl

/-- The offset of the missing byte is the number of bytes there are, at most two (R54). -/
theorem length_of_decode_missingByte {k : Nat} (h : decode bytes = .missingByte k) :
    bytes.length = k ∧ k < 3 := by
  cases bytes with
  | nil => cases h; exact ⟨rfl, by decide⟩
  | cons op bytes =>
    rw [decode_cons] at h
    cases hl : lookupOpcode op with
    | none => rw [hl] at h; cases h
    | some row =>
      rw [hl] at h
      rw [List.length_cons]
      rcases take_missingByte h with ⟨rfl, hlen⟩ | ⟨rfl, hlen⟩ <;> omega

end Sys2Proof

namespace Sys2Proof.Machine

/-- The fetch unit delivers three bytes, or as many as there are up to address 255 (R54). -/
theorem fetchBytes_length (s : State) : (fetchBytes s).length = min 3 (256 - s.pc.toNat) := by
  rcases fetchBytes_cases s with ⟨hp, h⟩ | ⟨hp, h⟩ | ⟨hp, h⟩ <;> rw [h] <;>
    simp only [List.length_cons, List.length_nil] <;> omega

/-- An instruction that decodes at pc ends inside memory. -/
theorem width_le_of_decode {s : State} {i : Instr} {rest : List Byte} (h : decode (fetchBytes s) = .ok i rest) :
    s.pc.toNat + i.width ≤ 256 := by
  have hlen := congrArg List.length (encode_of_decode h)
  rw [fetchBytes_length, List.length_append, encode_length] at hlen
  have := s.pc.isLt
  omega

/-- A consumed operand byte that the fetch unit does not deliver lies at address 256 (R54). -/
theorem missingByte_address {s : State} {k : Nat} (h : decode (fetchBytes s) = .missingByte k) :
    s.pc.toNat + k = 256 := by
  obtain ⟨hlen, hk⟩ := length_of_decode_missingByte h
  rw [fetchBytes_length] at hlen
  have := s.pc.isLt
  omega

/-- The byte at pc is the first byte of the instruction's encoding. -/
theorem opcode_of_decode {s : State} {i : Instr} {rest : List Byte} (h : decode (fetchBytes s) = .ok i rest) :
    (encode i).head? = some (s.mem.read s.pc.toNat) := by
  obtain ⟨tail, hf, _⟩ := fetchBytes_eq_cons s
  have hne : encode i ≠ [] := List.ne_nil_of_length_pos (encode_length i ▸ i.width_pos)
  rw [← List.head?_append_of_ne_nil _ hne, ← encode_of_decode h, hf]
  rfl

end Sys2Proof.Machine
end

section
/-! SUPPORT. The parts of the invariant, each kept by an instruction; the states it holds of from the start. -/

namespace Sys2Proof.Machine

variable {i : Instr} {s t : State}

theorem exec_keeps_memWf (h : exec i s = .next t) (hm : s.mem.wf) : t.mem.wf := by
  rcases exec_mem_cases h with he | ⟨r, _, _, he⟩
  · rwa [he]
  · have := s.sp.isLt
    rw [he]
    exact Memory.wf_write hm (by omega) _

theorem exec_keeps_spBound (h : exec i s = .next t) (hsp : s.sp.toNat ≤ 0xF4) : t.sp.toNat ≤ 0xF4 := by
  rcases exec_sp_cases h with he | ⟨_, _, he⟩ | ⟨_, _, hlt, he⟩
  · rwa [he]
  · omega
  · omega

theorem compareFlags_atMostOne (x y : Byte) : (compareFlags x y).atMostOne = true := by
  rcases compareFlags_cases x y with ⟨_, h⟩ | ⟨_, h⟩ | ⟨_, h⟩ <;> rw [h] <;> rfl

theorem exec_keeps_atMostOne (h : exec i s = .next t) (hf : s.flags.atMostOne = true) : t.flags.atMostOne = true := by
  rcases exec_flags_cases h with he | ⟨_, _, x, y, _, he⟩
  · rwa [he]
  · rw [he]
    exact compareFlags_atMostOne x y

/-- An instruction that fits at pc, with sp at most the sentinel, makes only the error records of R130. -/
theorem exec_keeps_runLegal (h : exec i s = .next t) (hw : s.pc.toNat + i.width ≤ 256) (hsp : s.sp.toNat ≤ 0xF4)
    (hr : s.run.legal = true) : t.run.legal = true := by
  cases exec_effect h with
  | halted _ | haltedAtTop _ => rfl
  | badRegister x _ hx =>
    have := x.isLt
    exact decide_eq_true (by omega)
  | advanced hwr _ =>
    rw [State.setPc_run, hwr.pc_run.2]
    exact hr
  | advanceFault _ hgt => exact decide_eq_true (by omega)
  | stackFull _ _ => rfl
  | stackUnderflow _ hge => exact decide_eq_true (by omega)
  | divideByZero _ rb _ =>
    have := rb.isLt
    exact decide_eq_true (by omega)
  | jmp _ | jeqTaken _ _ | jneTaken _ _ => exact hr

/-- The record of an opcode byte outside the map is legal (R66). -/
theorem recordLegal_unsupportedOpcode {op : Byte} (h : lookupOpcode op = none) :
    recordLegal .unsupportedOpcode op.toNat = true := by
  have := op.isLt
  simp only [recordLegal, BitVec.ofInt_natCast, BitVec.ofNat_toNat, BitVec.setWidth_eq, h, Option.isNone_none, Bool.and_true]
  exact decide_eq_true (by omega)

/-- Changing the run state to a legal one keeps the invariant. -/
theorem State.Inv.setRun {r : RunState} (h : s.Inv) (hr : r.legal = true) : (s.setRun r).Inv := by
  obtain ⟨hm, hsp, hf, _⟩ := h
  exact ⟨hm, hsp, hf, hr⟩

/-- The reset state over any canonical memory meets the invariant. -/
theorem inv_reset_setMem {m : Memory} (h : m.wf) : (State.reset.setMem m).Inv :=
  ⟨h, show State.reset.sp.toNat ≤ 0xF4 by decide, rfl, rfl⟩

/-- A launch is the reset state over the memory the image makes (R152). -/
theorem launchState_of_load {image : List Byte} (h : load image = .launched s) : s = launchState image := by
  unfold load at h
  split at h <;> cases h
  rfl

end Sys2Proof.Machine
end

section
/-! PROOFS. sp, the invariant, and the runs. -/

namespace Sys2Proof.Machine

/-- Settles O34: the decoded instruction moves sp only if it is PUSH or POP; the fetch faults keep it. -/
theorem stackPointerChangesOnlyByPushPop : Obligations.StackPointerChangesOnlyByPushPop := by
  intro s t h hsp
  obtain ⟨_, ⟨i, rest, hd, hx⟩ | ⟨op, _, rfl⟩ | ⟨k, _, rfl⟩⟩ := step_cases h
  · have hop := opcode_of_decode hd
    rcases exec_sp_cases hx with he | ⟨a, rfl, he⟩ | ⟨a, rfl, _, he⟩
    · exact absurd he hsp
    · exact .inl ⟨(Option.some.inj hop).symm, he⟩
    · exact .inr ⟨(Option.some.inj hop).symm, he⟩
  · exact absurd rfl hsp
  · exact absurd rfl hsp

/-- Settles O45: field by field for a decoded instruction, and by the legal record for a fetch fault. -/
theorem stepKeepsInvariant : Obligations.StepKeepsInvariant := by
  intro s t hinv h
  obtain ⟨_, ⟨i, rest, hd, hx⟩ | ⟨op, hd, rfl⟩ | ⟨k, hd, rfl⟩⟩ := step_cases h
  · obtain ⟨hm, hsp, hf, hr⟩ := hinv
    exact ⟨exec_keeps_memWf hx hm, exec_keeps_spBound hx hsp, exec_keeps_atMostOne hx hf,
      exec_keeps_runLegal hx (width_le_of_decode hd) hsp hr⟩
  · obtain ⟨_, _, hnone⟩ := decode_unsupported hd
    exact hinv.setRun (recordLegal_unsupportedOpcode hnone)
  · have := missingByte_address hd
    exact hinv.setRun (decide_eq_true (by omega))

/-- Settles O44: the empty memory is canonical. -/
theorem invariantHoldsAtReset : Obligations.InvariantHoldsAtReset := inv_reset_setMem Memory.wf_nil

/-- Settles O46, by induction on the run. -/
theorem reachableStatesMeetInvariant : Obligations.ReachableStatesMeetInvariant := by
  intro s hs
  induction hs with
  | launched h =>
    rw [launchState_of_load h]
    exact inv_reset_setMem (Memory.wf_storeFrom Memory.wf_nil 0 _)
  | ran _ h ih => exact stepKeepsInvariant _ _ ih h
  | restarted _ _ ih => exact inv_reset_setMem ih.1

end Sys2Proof.Machine
end

section
/-! SUPPORT. A relation between states that agree on everything a step reads is kept by every step, when every update of the
state keeps it. G, L and the output are what no such relation has to fix. -/

namespace Sys2Proof.Machine

/-- `R` relates states that agree on all that a step reads, and every update keeps it. -/
structure UpdateCongruence (R : State → State → Prop) : Prop where
  reg : ∀ {s s'}, R s s' → ∀ r, s'.reg r = s.reg r
  pc : ∀ {s s'}, R s s' → s'.pc = s.pc
  sp : ∀ {s s'}, R s s' → s'.sp = s.sp
  equal : ∀ {s s'}, R s s' → s'.flags.e = s.flags.e
  run : ∀ {s s'}, R s s' → s'.run = s.run
  mem : ∀ {s s'}, R s s' → s'.mem = s.mem
  setReg : ∀ {s s'}, R s s' → ∀ r v, R (s.setReg r v) (s'.setReg r v)
  setPc : ∀ {s s'}, R s s' → ∀ v, R (s.setPc v) (s'.setPc v)
  setSp : ∀ {s s'}, R s s' → ∀ v, R (s.setSp v) (s'.setSp v)
  setFlags : ∀ {s s'}, R s s' → ∀ f, R (s.setFlags f) (s'.setFlags f)
  setRun : ∀ {s s'}, R s s' → ∀ r, R (s.setRun r) (s'.setRun r)
  setMem : ∀ {s s'}, R s s' → ∀ m, R (s.setMem m) (s'.setMem m)
  emit : ∀ {s s'}, R s s' → ∀ v, R (s.emit v) (s'.emit v)

/-- Where the first result is a next state, the second is one, and the two are related. -/
def RelatedResults (R : State → State → Prop) (x x' : Result) : Prop :=
  ∀ t, x = .next t → ∃ t', x' = .next t' ∧ R t t'

section
variable {R : State → State → Prop} (hR : UpdateCongruence R) {s s' : State} (h : R s s')

theorem relatedResults_next {t t' : State} (ht : R t t') : RelatedResults R (.next t) (.next t') := by
  intro u hu
  cases hu
  exact ⟨t', rfl, ht⟩

include hR h

theorem raise_related (kind : ErrorKind) (info : Int) : RelatedResults R (raise kind info s) (raise kind info s') :=
  relatedResults_next (hR.setRun h _)

theorem advance_related (w : Nat) : RelatedResults R (advance w s) (advance w s') := by
  unfold advance
  rw [hR.pc h]
  split
  · exact relatedResults_next (hR.setPc h _)
  · exact raise_related hR h _ _

theorem checkReg_related (b : Byte) {k k' : RegIx → Result} (hk : ∀ r, RelatedResults R (k r) (k' r)) :
    RelatedResults R (checkReg b s k) (checkReg b s' k') := by
  rcases operandByte_cases b with ⟨r, rfl⟩ | hb
  · rw [checkReg_regByte, checkReg_regByte]
    exact hk r
  · rw [checkReg_bad hb, checkReg_bad hb]
    exact raise_related hR h _ _

theorem memRead_related (a : Int) {k k' : Byte → Result} (hk : ∀ v, RelatedResults R (k v) (k' v)) :
    RelatedResults R (memRead a s k) (memRead a s' k') := by
  unfold memRead State.cell
  rw [hR.mem h]
  split
  · exact hk _
  · exact raise_related hR h _ _

theorem memWrite_related (a : Int) (v : Byte) {k k' : State → Result}
    (hk : ∀ m, RelatedResults R (k (s.setMem m)) (k' (s'.setMem m))) :
    RelatedResults R (memWrite a v s k) (memWrite a v s' k') := by
  unfold memWrite
  rw [hR.mem h]
  split
  · exact hk _
  · exact raise_related hR h _ _

theorem applyAlu_related (ra rb : RegIx) (x : AluOutcome) :
    RelatedResults R (applyAlu ra rb s x) (applyAlu ra rb s' x) := by
  cases x with
  | value v => exact advance_related hR (hR.setReg h ra v) 3
  | flags f => exact advance_related hR (hR.setFlags h f) 3
  | divideByZero => exact raise_related hR h _ _
  | unsupportedOperation op => exact raise_related hR h _ _

theorem runAlu_related (op a b : Byte) : RelatedResults R (runAlu op a b s) (runAlu op a b s') := by
  refine checkReg_related hR h a fun ra => checkReg_related hR h b fun rb => ?_
  rw [hR.reg h, hR.reg h]
  exact applyAlu_related hR h ra rb _

theorem jumpTo_related (r : RegIx) : RelatedResults R (jumpTo r s) (jumpTo r s') := by
  unfold jumpTo
  rw [hR.reg h]
  exact relatedResults_next (hR.setPc h _)

/-- Every instruction keeps the relation. -/
theorem exec_related (i : Instr) : RelatedResults R (exec i s) (exec i s') := by
  cases i with
  | hlt =>
    simp only [exec, execHlt, hR.pc h]
    split
    · exact relatedResults_next (hR.setPc (hR.setRun h _) _)
    · exact relatedResults_next (hR.setRun h _)
  | ldi a imm => exact checkReg_related hR h a fun ra => advance_related hR (hR.setReg h ra imm) 3
  | prn a =>
    rw [exec_prn, exec_prn]
    refine checkReg_related hR h a fun ra => ?_
    rw [hR.reg h]
    exact advance_related hR (hR.emit h _) 2
  | mul a b | and a b | or a b | xor a b | shl a b | shr a b | mod a b | not a b | cmp a b =>
    exact runAlu_related hR h _ a b
  | push a =>
    rw [exec_push, exec_push]
    refine checkReg_related hR h a fun ra => ?_
    simp only [pushAddress, hR.sp h, hR.reg h]
    exact memWrite_related hR h _ _ fun m => advance_related hR (hR.setSp (hR.setMem h m) _) 2
  | pop a =>
    rw [exec_pop, exec_pop]
    refine checkReg_related hR h a fun ra => ?_
    have hempty : stackEmpty s' = stackEmpty s := by simp only [stackEmpty, hR.sp h]
    rw [hempty, hR.sp h]
    split
    · exact raise_related hR h _ _
    · exact memRead_related hR h _ fun v => advance_related hR (hR.setSp (hR.setReg h ra v) _) 2
  | jmp a => exact checkReg_related hR h a fun ra => jumpTo_related hR h ra
  | jeq a =>
    rw [exec_jeq, exec_jeq]
    refine checkReg_related hR h a fun ra => ?_
    rw [hR.equal h]
    split
    · exact jumpTo_related hR h ra
    · exact advance_related hR h 2
  | jne a =>
    rw [exec_jne, exec_jne]
    refine checkReg_related hR h a fun ra => ?_
    rw [hR.equal h]
    split
    · exact advance_related hR h 2
    · exact jumpTo_related hR h ra

theorem fetchBytes_related : fetchBytes s' = fetchBytes s := by
  simp only [fetchBytes, State.cell, hR.pc h, hR.mem h]

/-- Every step keeps the relation. -/
theorem step_related : RelatedResults R (step s) (step s') := by
  intro t ht
  have hrun := (step_cases ht).1
  rw [step_running hrun] at ht
  rw [step_running ((hR.run h).trans hrun), fetchBytes_related hR h]
  revert t
  cases decode (fetchBytes s) with
  | ok i rest => exact exec_related hR h i
  | unsupportedOpcode op => exact raise_related hR h _ _
  | missingByte k =>
    rw [execDecoded_missingByte, execDecoded_missingByte, hR.pc h]
    exact raise_related hR h _ _

end

/-- `s'` is `s` with some G and L. -/
def EqualButGreaterLess (s s' : State) : Prop := ∃ g l, s' = Claims.withGreaterLess s g l

theorem equalButGreaterLess_congruence : UpdateCongruence EqualButGreaterLess where
  reg := by rintro s _ ⟨g, l, rfl⟩ r; rfl
  pc := by rintro s _ ⟨g, l, rfl⟩; rfl
  sp := by rintro s _ ⟨g, l, rfl⟩; rfl
  equal := by rintro s _ ⟨g, l, rfl⟩; rfl
  run := by rintro s _ ⟨g, l, rfl⟩; rfl
  mem := by rintro s _ ⟨g, l, rfl⟩; rfl
  setReg := by rintro s _ ⟨g, l, rfl⟩ r v; exact ⟨g, l, rfl⟩
  setPc := by rintro s _ ⟨g, l, rfl⟩ v; exact ⟨g, l, rfl⟩
  setSp := by rintro s _ ⟨g, l, rfl⟩ v; exact ⟨g, l, rfl⟩
  setFlags := by rintro s _ ⟨g, l, rfl⟩ f; exact ⟨f.g, f.l, rfl⟩
  setRun := by rintro s _ ⟨g, l, rfl⟩ r; exact ⟨g, l, rfl⟩
  setMem := by rintro s _ ⟨g, l, rfl⟩ m; exact ⟨g, l, rfl⟩
  emit := by rintro s _ ⟨g, l, rfl⟩ v; exact ⟨g, l, rfl⟩

/-- Settles O40: "equal but for G and L" is such a relation; only CMP writes the two, and it writes both. -/
theorem greaterAndLessAreNeverRead : Obligations.GreaterAndLessAreNeverRead := by
  intro s t g l h
  obtain ⟨t', h', _, _, rfl⟩ := step_related equalButGreaterLess_congruence ⟨g, l, rfl⟩ t h
  exact ⟨_, h', rfl⟩

end Sys2Proof.Machine
end

section
/-! PROOFS. The flag byte and the independence of the registers. -/

namespace Sys2Proof.Machine

/-- The flag byte bit by bit: E, G, L from the bottom, then zeros (R26). -/
theorem flByte_getLsbD (f : Flags) (k : Nat) :
    f.flByte.getLsbD k = if k = 0 then f.e else if k = 1 then f.g else if k = 2 then f.l else false := by
  change BitVec.getLsbD (w := 5 + 1 + 1 + 1) (0#5 ++ flagBit f.l ++ flagBit f.g ++ flagBit f.e) k = _
  simp only [flagBit, BitVec.getLsbD_append, BitVec.getLsbD_ofBool]
  match k with
  | 0 | 1 | 2 => simp
  | k + 3 => simp

/-- Settles O50, bit by bit. -/
theorem flagByteLayout : Obligations.FlagByteLayout := by
  intro f
  refine ⟨flByte_getLsbD f 0, flByte_getLsbD f 1, flByte_getLsbD f 2, fun k hk => ?_⟩
  rw [flByte_getLsbD, if_neg (by omega), if_neg (by omega), if_neg (by omega)]

theorem eq_regByte {a : Byte} {r : RegIx} (h : a.toNat = r.val) : a = regByte r :=
  BitVec.eq_of_toNat_eq (h.trans (regByte_toNat r).symm)

/-- Settles O52: LDI is one `setReg` and an advance, PUSH writes no register. -/
theorem registersAreIndependent : Obligations.RegistersAreIndependent := by
  refine ⟨fun s r a v ha hpc => ?_, fun s r a ha hpc hsp => ?_⟩
  · rw [eq_regByte ha, exec_ldi, checkReg_regByte, advance_of_le (by rw [State.setReg_pc]; omega)]
    exact ⟨_, rfl, State.reg_setReg_same s r v, fun r' hr => State.reg_setReg_other s r r' v hr,
      (BitVec.toNat_ofNat ..).trans (Nat.mod_eq_of_lt (by rw [State.setReg_pc]; omega)), rfl, rfl, rfl, rfl, rfl⟩
  · obtain ⟨_, h⟩ := (exec_push_cases r s).resolve_right (by omega)
    rw [eq_regByte ha, h, advance_of_le (by simp only [State.setSp_pc, State.setMem_pc]; omega)]
    exact ⟨_, rfl, sp_pred_toNat hsp, fun _ => rfl⟩

end Sys2Proof.Machine
end

section
/-! PROOFS. The output: what a step appends, and that no step reads it back (20_memory.md section 5). -/

namespace Sys2Proof.Machine

/-- `s'` is `s` with the first `n` output bytes replaced by `o`. -/
def EqualButEarlierOutput (o : List Byte) (n : Nat) (s s' : State) : Prop :=
  n ≤ s.out.length ∧ s' = { s with out := o ++ s.out.drop n }

theorem equalButEarlierOutput_congruence (o : List Byte) (n : Nat) : UpdateCongruence (EqualButEarlierOutput o n) where
  reg := by rintro s _ ⟨hn, rfl⟩ r; rfl
  pc := by rintro s _ ⟨hn, rfl⟩; rfl
  sp := by rintro s _ ⟨hn, rfl⟩; rfl
  equal := by rintro s _ ⟨hn, rfl⟩; rfl
  run := by rintro s _ ⟨hn, rfl⟩; rfl
  mem := by rintro s _ ⟨hn, rfl⟩; rfl
  setReg := by rintro s _ ⟨hn, rfl⟩ r v; exact ⟨hn, rfl⟩
  setPc := by rintro s _ ⟨hn, rfl⟩ v; exact ⟨hn, rfl⟩
  setSp := by rintro s _ ⟨hn, rfl⟩ v; exact ⟨hn, rfl⟩
  setFlags := by rintro s _ ⟨hn, rfl⟩ f; exact ⟨hn, rfl⟩
  setRun := by rintro s _ ⟨hn, rfl⟩ r; exact ⟨hn, rfl⟩
  setMem := by rintro s _ ⟨hn, rfl⟩ m; exact ⟨hn, rfl⟩
  emit := by
    rintro s _ ⟨hn, rfl⟩ v
    refine ⟨by simp only [State.emit_out, List.length_append]; omega, ?_⟩
    simp only [State.emit, List.drop_append_of_le_length hn, List.append_assoc]

/-- Settles O41: "equal but for the output before the step" is kept by every update; the one that touches the output appends
behind what was replaced. -/
theorem outputIsNeverReadBack : Obligations.OutputIsNeverReadBack := by
  intro s t o h
  have hstart : EqualButEarlierOutput o s.out.length s { s with out := o } := ⟨le_rfl, by simp⟩
  obtain ⟨t', h', _, rfl⟩ := step_related (equalButEarlierOutput_congruence o s.out.length) hstart t h
  exact h'

/-- Settles O35: the decoded instruction writes the output only if it is PRN; the fetch faults keep it. -/
theorem outputGrowsOnlyByPrn : Obligations.OutputGrowsOnlyByPrn := by
  intro s t h
  obtain ⟨_, ⟨i, rest, hd, hx⟩ | ⟨op, _, rfl⟩ | ⟨k, _, rfl⟩⟩ := step_cases h
  · rcases exec_out_cases hx with he | ⟨r, rfl, he⟩
    · exact .inl he
    · exact .inr ⟨(Option.some.inj (opcode_of_decode hd)).symm, r, he⟩
  · exact .inl rfl
  · exact .inl rfl

end Sys2Proof.Machine
end

section
/-! SUPPORT. An instruction whose bytes stand at pc is what the decoder reads there; and exec over another memory. -/

namespace Sys2Proof

/-- Decoding reads an encoding back, whatever follows it (R60, R65). -/
theorem decode_encode_append (i : Instr) (rest : List Byte) : decode (encode i ++ rest) = .ok i rest := by
  cases i <;> rfl

end Sys2Proof

namespace Sys2Proof.Machine

/-! ### The fetched bytes -/

/-- The fetch unit's byte `k` is the cell at pc + k, where that lies in memory (R54). -/
theorem fetchBytes_getElem? {s : State} {k : Nat} (hk : k < 3) (hpc : s.pc.toNat + k < 256) :
    (fetchBytes s)[k]? = some (s.mem.read (s.pc.toNat + k)) := by
  rcases fetchBytes_cases s with ⟨hp, h⟩ | ⟨hp, h⟩ | ⟨hp, h⟩ <;> rw [h]
  · obtain rfl | rfl | rfl : k = 0 ∨ k = 1 ∨ k = 2 := by omega
    all_goals rfl
  · obtain rfl | rfl : k = 0 ∨ k = 1 := by omega
    all_goals rw [hp]; rfl
  · obtain rfl : k = 0 := by omega
    rw [hp]; rfl

/-- The bytes of an instruction at pc are what the decoder reads there (R153). -/
theorem decode_of_instructionAtPc {s : State} {i : Instr} (h : Claims.InstructionAtPc s i) :
    ∃ rest, decode (fetchBytes s) = .ok i rest := by
  obtain ⟨hfit, hbytes⟩ := h
  have hprefix : encode i <+: fetchBytes s := by
    refine List.prefix_iff_getElem?.2 fun k hk => ?_
    have hkw : k < i.width := encode_length i ▸ hk
    have := i.width_le
    rw [fetchBytes_getElem? (by omega) (by omega), ← hbytes k hkw, List.getElem?_eq_getElem hk]
  obtain ⟨rest, hrest⟩ := hprefix
  exact ⟨rest, hrest ▸ decode_encode_append i rest⟩

/-- With an instruction's bytes at pc, a Running state steps by executing it (R153). -/
theorem step_of_instructionAtPc {s : State} {i : Instr} (hrun : s.run = .running) (h : Claims.InstructionAtPc s i) :
    step s = exec i s := by
  obtain ⟨rest, hd⟩ := decode_of_instructionAtPc h
  rw [step_running hrun, hd, execDecoded_ok]

/-- A memory that reads alike on the instruction's bytes holds the instruction at pc as well. -/
theorem instructionAtPc_setMem {s : State} {i : Instr} {m : Memory} (h : Claims.InstructionAtPc s i)
    (hm : ∀ k < i.width, m.read (s.pc.toNat + k) = s.mem.read (s.pc.toNat + k)) :
    Claims.InstructionAtPc (s.setMem m) i := by
  obtain ⟨hfit, hbytes⟩ := h
  exact ⟨hfit, fun k hk => (hbytes k hk).trans (congrArg some (hm k hk).symm)⟩

/-! ### Another memory under an operation -/

/-- A result with the memory of its next state replaced. -/
def withMemory (m : Memory) : Result → Result
  | .next t => .next (t.setMem m)
  | .fault r => .fault r
  | .refused r => .refused r

variable (m : Memory) (s : State)

@[simp] theorem withMemory_next : withMemory m (.next s) = .next (s.setMem m) := rfl

@[simp] theorem withMemory_raise (kind : ErrorKind) (info : Int) :
    withMemory m (raise kind info s) = raise kind info (s.setMem m) := rfl

@[simp] theorem withMemory_advance (w : Nat) : withMemory m (advance w s) = advance w (s.setMem m) := by
  unfold advance
  exact apply_ite (withMemory m) _ _ _

@[simp] theorem withMemory_checkReg (b : Byte) (k : RegIx → Result) :
    withMemory m (checkReg b s k) = checkReg b (s.setMem m) fun r => withMemory m (k r) := by
  unfold checkReg
  exact apply_dite (withMemory m) _ _ _

@[simp] theorem withMemory_jumpTo (r : RegIx) : withMemory m (jumpTo r s) = jumpTo r (s.setMem m) := rfl

@[simp] theorem withMemory_applyAlu (ra rb : RegIx) (x : AluOutcome) :
    withMemory m (applyAlu ra rb s x) = applyAlu ra rb (s.setMem m) x := by
  cases x with
  | value v => exact withMemory_advance m _ 3
  | flags f => exact withMemory_advance m _ 3
  | divideByZero | unsupportedOperation _ => rfl

@[simp] theorem withMemory_runAlu (op a b : Byte) :
    withMemory m (runAlu op a b s) = runAlu op a b (s.setMem m) := by
  simp only [runAlu, withMemory_checkReg, withMemory_applyAlu, State.setMem_reg]

/-! ### Another memory under an instruction -/

variable {m s}

/-- An instruction that does not store does the same over another memory, if POP finds the same byte at sp. -/
theorem exec_setMem_of_ne_push {i : Instr} (hpush : ∀ a, i ≠ .push a)
    (hpop : ∀ a, i = .pop a → m.read s.sp.toNat = s.mem.read s.sp.toNat) :
    exec i (s.setMem m) = withMemory m (exec i s) := by
  cases i with
  | hlt =>
    simp only [exec, execHlt, apply_ite (withMemory m)]
    rfl
  | ldi a imm => simp only [exec_ldi, withMemory_checkReg, withMemory_advance]; rfl
  | prn a => simp only [exec_prn, withMemory_checkReg, withMemory_advance]; rfl
  | mul a b | and a b | or a b | xor a b | shl a b | shr a b | mod a b | not a b | cmp a b =>
    exact (withMemory_runAlu m s _ a b).symm
  | push a => exact absurd rfl (hpush a)
  | pop a =>
    rcases operandByte_cases a with ⟨r, rfl⟩ | ha
    · rcases exec_pop_cases r s with ⟨h1, he⟩ | ⟨h1, he⟩ <;> rw [he]
      · obtain ⟨_, he'⟩ := (exec_pop_cases r (s.setMem m)).resolve_right (by rw [State.setMem_sp]; omega)
        rw [he', withMemory_advance, State.setMem_cell, State.setMem_sp, hpop _ rfl]
        rfl
      · obtain ⟨_, he'⟩ := (exec_pop_cases r (s.setMem m)).resolve_left (by rw [State.setMem_sp]; omega)
        exact he'
    · rw [exec_pop_bad _ ha, exec_pop_bad _ ha, withMemory_raise]
  | jmp a => simp only [exec_jmp, withMemory_checkReg, withMemory_jumpTo]
  | jeq a =>
    simp only [exec_jeq, withMemory_checkReg, apply_ite (withMemory m), withMemory_jumpTo, withMemory_advance]
    rfl
  | jne a =>
    simp only [exec_jne, withMemory_checkReg, apply_ite (withMemory m), withMemory_jumpTo, withMemory_advance]
    rfl

theorem advance_mem {w : Nat} {t : State} (h : advance w s = .next t) : t.mem = s.mem := by
  rcases advance_cases w s with ⟨_, he⟩ | ⟨_, he⟩ <;> rw [he] at h <;> cases h <;> rfl

/-- PUSH does the same over another memory: it stores the same byte at the same address, or raises the same fault. -/
theorem exec_push_setMem {a : Byte} {t : State} (h : exec (.push a) s = .next t) :
    ∃ m', exec (.push a) (s.setMem m) = .next (t.setMem m') ∧
      ∀ y, m.read y = s.mem.read y → m'.read y = t.mem.read y := by
  rcases operandByte_cases a with ⟨r, rfl⟩ | ha
  · rcases exec_push_cases r s with ⟨h1, he⟩ | ⟨h0, he⟩ <;> rw [he] at h
    · obtain ⟨_, he'⟩ := (exec_push_cases r (s.setMem m)).resolve_right (by rw [State.setMem_sp]; omega)
      refine ⟨m.write (s.sp.toNat - 1) (s.reg r), ?_, fun y hy => ?_⟩
      · rw [he', ← withMemory_next, ← h, withMemory_advance]
        rfl
      · rw [advance_mem h, State.setSp_mem, State.setMem_mem, Memory.read_write, Memory.read_write, hy]
    · obtain ⟨_, he'⟩ := (exec_push_cases r (s.setMem m)).resolve_left (by rw [State.setMem_sp]; omega)
      rw [raise_next h]
      exact ⟨m, he', fun y hy => hy⟩
  · rw [exec_push_bad s ha] at h
    rw [raise_next h]
    exact ⟨m, exec_push_bad _ ha, fun y hy => hy⟩

/-- Over another memory in which POP finds the same byte, an instruction gives the same state but for memory, and memory stays
alike wherever it was. -/
theorem exec_setMem {i : Instr} {t : State} (h : exec i s = .next t)
    (hpop : ∀ a, i = .pop a → m.read s.sp.toNat = s.mem.read s.sp.toNat) :
    ∃ m', exec i (s.setMem m) = .next (t.setMem m') ∧ ∀ y, m.read y = s.mem.read y → m'.read y = t.mem.read y := by
  by_cases hpush : ∃ a, i = .push a
  · obtain ⟨a, rfl⟩ := hpush
    exact exec_push_setMem h
  · rw [not_exists] at hpush
    refine ⟨m, ?_, fun y hy => ?_⟩
    · rw [exec_setMem_of_ne_push hpush hpop, h, withMemory_next]
    · rw [exec_mem_of_ne_push h hpush, hy]

end Sys2Proof.Machine
end

section
/-! SUPPORT. A memory in canonical form is determined by what it reads as; the one store of a step. -/

namespace Sys2Proof.Machine

/-- What an address reads as, if it is not what an unlisted one does, stands in the list. -/
theorem Memory.mem_of_read_ne {m : Memory} {a : Nat} (h : m.read a ≠ 0) : (a, m.read a) ∈ m := by
  induction m with
  | nil => exact absurd rfl h
  | cons c m ih =>
    rw [Memory.read_cons] at h ⊢
    split
    · next hc => exact hc ▸ List.mem_cons_self
    · next hc => exact List.mem_cons_of_mem c (ih (by rwa [if_neg hc] at h))

/-- With the addresses rising, every listed cell is what its address reads as. -/
theorem Memory.read_of_mem {m : Memory} (h : m.Pairwise fun c d => c.1 < d.1) {c : Host.Cell} (hc : c ∈ m) :
    m.read c.1 = c.2 := by
  induction m with
  | nil => cases hc
  | cons d m ih =>
    obtain ⟨hd, hm⟩ := List.pairwise_cons.1 h
    rw [Memory.read_cons]
    rcases List.mem_cons.1 hc with rfl | hc
    · exact if_pos rfl
    · rw [if_neg (hd c hc).ne, ih hm hc]

/-- A canonical memory lists only cells that any memory with the same reads lists too. -/
theorem Memory.subset_of_read_eq {m n : Memory} (hm : m.wf) (h : ∀ a < 256, m.read a = n.read a) : m ⊆ n := by
  intro c hc
  obtain ⟨hsorted, hcells⟩ := hm
  obtain ⟨hlt, hne⟩ := hcells c hc
  have hread : n.read c.1 = c.2 := (h c.1 hlt).symm.trans (Memory.read_of_mem hsorted hc)
  have hmem := Memory.mem_of_read_ne (hread.trans_ne hne)
  rwa [hread] at hmem

/-- A step keeps memory, or it executes PUSH and stores one byte at sp - 1 (R40, R111). -/
theorem step_mem_cases {s t : State} (h : step s = .next t) :
    t.mem = s.mem ∨
    (s.mem.read s.pc.toNat = Opcode.push ∧ 1 ≤ s.sp.toNat ∧ ∃ v, t.mem = s.mem.write (s.sp.toNat - 1) v) := by
  obtain ⟨_, ⟨i, rest, hd, hx⟩ | ⟨op, _, rfl⟩ | ⟨k, _, rfl⟩⟩ := step_cases h
  · rcases exec_mem_cases hx with he | ⟨r, rfl, h1, he⟩
    · exact .inl he
    · exact .inr ⟨(Option.some.inj (opcode_of_decode hd)).symm, h1, _, he⟩
  · exact .inl rfl
  · exact .inl rfl

end Sys2Proof.Machine
end

section
/-! PROOFS. Memory: what is read, what is written, the loader's refusal, and the canonical form (20_memory.md). -/

namespace Sys2Proof.Machine

/-- Settles O42: the changed cell is not among the bytes at pc, so the same instruction is executed over the changed memory. -/
theorem onlyOwnBytesAndPoppedCellAreRead : Obligations.OnlyOwnBytesAndPoppedCellAreRead := by
  intro s t i x v hat h hx hpop
  have hrun := (step_cases h).1
  rw [step_of_instructionAtPc hrun hat] at h
  have hat' : Claims.InstructionAtPc (s.setMem (s.mem.write x v)) i :=
    instructionAtPc_setMem hat fun k hk => Memory.read_write_other _ v (by omega)
  have hstep' := step_of_instructionAtPc (s := s.setMem (s.mem.write x v)) hrun hat'
  obtain ⟨m', h', hm'⟩ := exec_setMem h fun a ha => Memory.read_write_other s.mem v (hpop a ha).symm
  exact ⟨t.setMem m', hstep'.trans h', fun _ => rfl, rfl, rfl, rfl, rfl, rfl,
    fun y hy => hm' y (Memory.read_write_other _ v hy)⟩

/-- Settles O24: the fetch unit reads the memory that PUSH has just stored into. -/
theorem pushedByteIsFetchedNext : Obligations.PushedByteIsFetchedNext := by
  intro s t ra k h hsp hk haddr
  have hbound := s.sp.isLt
  obtain ⟨_, he⟩ := (exec_push_cases ra s).resolve_right (by omega)
  rw [he] at h
  rw [fetchBytes_getElem? hk (by omega), haddr, advance_mem h]
  exact congrArg some (Memory.read_write_same _ _ _)

/-- Settles O32: the one store of a step is PUSH's. -/
theorem memoryChangesOnlyByPush : Obligations.MemoryChangesOnlyByPush := by
  intro s t x h hne
  rcases step_mem_cases h with he | ⟨hop, h1, v, he⟩
  · exact absurd (congrArg (Memory.read · x) he) hne
  · refine ⟨hop, ?_⟩
    have hx : x = s.sp.toNat - 1 := by
      by_contra hx
      exact hne (he ▸ Memory.read_write_other _ v hx)
    omega

/-- Settles O43: by O32 a changed address is sp - 1, which is below 0xF4. -/
theorem highMemoryIsNeverWritten : Obligations.HighMemoryIsNeverWritten := by
  intro s t x hsp h hx
  by_contra hne
  have := (memoryChangesOnlyByPush s t x h hne).2
  omega

/-- Settles O49: the two lists have the same cells, and rising addresses leave one order for them. -/
theorem canonicalMemoriesWithEqualReadsAreEqual : Obligations.CanonicalMemoriesWithEqualReadsAreEqual := by
  intro m n hm hn h
  have : Std.Irrefl (α := Host.Cell) fun c d => c.1 < d.1 := ⟨fun c => Nat.lt_irrefl c.1⟩
  have : Std.Antisymm (α := Host.Cell) fun c d => c.1 < d.1 := ⟨fun _ _ hcd hdc => absurd hcd hdc.not_gt⟩
  exact List.Subset.antisymm_of_pairwise hm.1 hn.1 (Memory.subset_of_read_eq hm h)
    (Memory.subset_of_read_eq hn fun a ha => (h a ha).symm)

/-- Settles O48: the loader's length check fails. -/
theorem oversizedImageIsNotLoaded : Obligations.OversizedImageIsNotLoaded := by
  intro image hlen
  have hload : load image = .programTooLarge image.length := if_neg (Nat.not_le.2 hlen)
  exact ⟨hload, fun s hs => by rw [hload] at hs; cases hs⟩

/-- Settles O54: an address up to 255 is an access, so neither operation faults. -/
theorem memoryAccessesHaveNoSideEffect : Obligations.MemoryAccessesHaveNoSideEffect := by
  intro s a ha
  have hin : inMemory (a : Int) := by simp only [inMemory, Config.memSize]; omega
  have hread (k : Byte → Result) : memRead a s k = k (s.mem.read a) := if_pos hin
  refine ⟨hread, fun k => ?_, fun v => ?_⟩
  · rw [hread, hread]
  · exact ⟨s.setMem (s.mem.write a v), fun k => if_pos hin, Memory.read_write_same _ _ _,
      fun b hb => Memory.read_write_other _ v hb, rfl⟩

end Sys2Proof.Machine
end

section
/-! SUPPORT. The opcode map against the opcode bytes written out by width, and what the decoder rejects
(spec/30_encoding.md R64 to R66). -/

namespace Sys2Proof

open Claims

variable {op : Byte} {rest : List Byte} {k : Nat}

/-! ### The map's bytes -/

/-- The 17 bytes written out by width are the map's, in another order. -/
theorem opcodes_perm_opcodeMap : opcodes.Perm (opcodeMap.map OpcodeRow.opcode) := by decide

theorem lookup_none_iff_notMem_opcodes : lookupOpcode op = none ↔ op ∉ opcodes := by
  rw [lookup_none_iff, opcodes_perm_opcodeMap.mem_iff, List.mem_map]
  simp only [not_exists, not_and, ne_eq]

theorem exists_lookup_of_mem_opcodes (h : op ∈ opcodes) : ∃ row, lookupOpcode op = some row :=
  Option.ne_none_iff_exists'.1 fun hnone => lookup_none_iff_notMem_opcodes.1 hnone h

/-- The opcode bytes among the 256 are the 17. -/
theorem filter_opcodes_perm :
    ((List.range 256).filter fun n => opcodes.contains (BitVec.ofNat 8 n)).Perm (opcodes.map BitVec.toNat) := by
  refine (List.perm_ext_iff_of_nodup (List.nodup_range.filter _) (by decide)).2 fun n => ?_
  simp only [List.mem_filter, List.mem_range, List.contains_iff_mem, List.mem_map]
  constructor
  · rintro ⟨hn, hmem⟩
    exact ⟨_, hmem, (BitVec.toNat_ofNat n 8).trans (Nat.mod_eq_of_lt hn)⟩
  · rintro ⟨op, hmem, rfl⟩
    exact ⟨op.isLt, by rwa [BitVec.ofNat_toNat, BitVec.setWidth_eq]⟩

/-- The other bytes are 256 less 17 (R66). -/
theorem length_unsupportedOpcodes :
    ((List.range 256).filter fun n => !opcodes.contains (BitVec.ofNat 8 n)).length = 239 := by
  have hsplit := List.length_eq_length_filter_add (l := List.range 256) fun n => opcodes.contains (BitVec.ofNat 8 n)
  have hsupported := filter_opcodes_perm.length_eq
  rw [List.length_map, show opcodes.length = 17 from rfl] at hsupported
  rw [List.length_range, hsupported] at hsplit
  omega

/-! ### The width of a format -/

/-- How many bytes a format takes, the opcode byte with them (R60). -/
def OperandForm.width : OperandForm → Nat
  | .f1 _ => 1
  | .f2 _ => 2
  | .f3 _ => 3

theorem OperandForm.width_le (form : OperandForm) : form.width ≤ 3 := by
  cases form <;> simp only [width] <;> omega

/-- The operand bytes run out exactly where, the opcode byte counted, there are fewer than the format takes; the first one
missing is the next one. -/
theorem take_missingByte_iff {form : OperandForm} :
    form.take rest = .missingByte k ↔ rest.length + 1 = k ∧ k < form.width := by
  match form, rest with
  | .f1 _, _ => simp only [OperandForm.take, OperandForm.width, reduceCtorEq, false_iff]; omega
  | .f2 _, [] | .f3 _, [] | .f3 _, [_] =>
    simp only [OperandForm.take, OperandForm.width, DecodeResult.missingByte.injEq, List.length_cons, List.length_nil]
    omega
  | .f2 _, _ :: _ | .f3 _, _ :: _ :: _ =>
    simp only [OperandForm.take, OperandForm.width, reduceCtorEq, false_iff, List.length_cons]
    omega

/-- Enough operand bytes make an instruction. -/
theorem exists_take_ok {form : OperandForm} (h : form.width ≤ rest.length + 1) :
    ∃ i rest', form.take rest = .ok i rest' := by
  cases htake : form.take rest with
  | ok i rest' => exact ⟨i, rest', rfl⟩
  | unsupportedOpcode op => exact absurd htake (take_ne_unsupported form rest op)
  | missingByte k =>
    have := take_missingByte_iff.1 htake
    omega

/-- The rows of the map whose format takes an operand, and those whose format takes two, are those of the written-out bytes. -/
theorem opcodeMap_widths : ∀ row ∈ opcodeMap,
    (2 ≤ row.form.width ↔ row.opcode ∈ opcodesOfWidth2 ++ opcodesOfWidth3) ∧
    (3 ≤ row.form.width ↔ row.opcode ∈ opcodesOfWidth3) := by decide

/-! ### Decoding from the opcode byte on -/

theorem decode_cons_of_lookup {row : OpcodeRow} (h : lookupOpcode op = some row) :
    decode (op :: rest) = row.form.take rest := by
  rw [decode_cons, h]

theorem decode_cons_of_notMem_opcodes (h : op ∉ opcodes) : decode (op :: rest) = .unsupportedOpcode op := by
  rw [decode_cons, lookup_none_iff_notMem_opcodes.2 h]

/-- An opcode byte of the map with two operand bytes decodes: no encoding of the 17 is reserved (R66). -/
theorem exists_decode_ok_of_mem_opcodes (h : op ∈ opcodes) (a b : Byte) : ∃ i rest, decode [op, a, b] = .ok i rest := by
  obtain ⟨row, hrow⟩ := exists_lookup_of_mem_opcodes h
  rw [decode_cons_of_lookup hrow]
  exact exists_take_ok row.form.width_le

theorem decode_unsupported_iff {bytes : List Byte} :
    decode bytes = .unsupportedOpcode op ↔ bytes.head? = some op ∧ op ∉ opcodes := by
  constructor
  · intro h
    obtain ⟨rest, rfl, hnone⟩ := decode_unsupported h
    exact ⟨rfl, lookup_none_iff_notMem_opcodes.1 hnone⟩
  · rintro ⟨hhead, hop⟩
    obtain ⟨rest, rfl⟩ := List.head?_eq_some_iff.1 hhead
    exact decode_cons_of_notMem_opcodes hop

/-- After an opcode byte, operand A is missing when it is needed and nothing follows, operand B when it is needed and one
byte follows. -/
theorem decode_cons_missingByte_iff :
    decode (op :: rest) = .missingByte k ↔ rest.length + 1 = k ∧
      ((k = 1 ∧ op ∈ opcodesOfWidth2 ++ opcodesOfWidth3) ∨ (k = 2 ∧ op ∈ opcodesOfWidth3)) := by
  by_cases hop : op ∈ opcodes
  · obtain ⟨row, hrow⟩ := exists_lookup_of_mem_opcodes hop
    obtain ⟨hmem, rfl⟩ := lookup_mem hrow
    obtain ⟨htwo, hthree⟩ := opcodeMap_widths row hmem
    have := row.form.width_le
    rw [decode_cons_of_lookup hrow, take_missingByte_iff, ← htwo, ← hthree]
    omega
  · have htwo : op ∉ opcodesOfWidth2 ++ opcodesOfWidth3 := by
      rw [opcodes, List.append_assoc] at hop
      exact mt (List.mem_append_right _) hop
    have hthree : op ∉ opcodesOfWidth3 := mt (List.mem_append_right _) htwo
    simp only [decode_cons_of_notMem_opcodes hop, reduceCtorEq, htwo, hthree, and_false, or_false]

end Sys2Proof
end

section
/-! SUPPORT. A table word's bytes, and what stands at pc once it is placed there (log 3, log 29). -/

namespace Sys2Proof

open Claims

/-- A run of bytes fits in its own number of bits. -/
theorem wordOf_lt (bytes : List Byte) : wordOf bytes < 2 ^ (8 * bytes.length) := by
  induction bytes with
  | nil => exact Nat.one_pos
  | cons b bytes ih =>
    have := b.isLt
    rw [wordOf, List.length_cons, Nat.mul_succ, Nat.pow_add]
    omega

/-- The low byte of a word is the first byte of the run, and the rest of the word is the word of the rest. -/
theorem ofNat_wordOf_cons (b : Byte) (bytes : List Byte) : BitVec.ofNat 8 (wordOf (b :: bytes)) = b := by
  have := b.isLt
  refine BitVec.eq_of_toNat_eq ?_
  rw [BitVec.toNat_ofNat, wordOf]
  omega

theorem wordOf_cons_div (b : Byte) (bytes : List Byte) : wordOf (b :: bytes) / 2 ^ 8 = wordOf bytes := by
  have := b.isLt
  rw [wordOf]
  omega

/-- The table word of at most three bytes gives these bytes back, filled up with zeros. -/
theorem tableWordBytes_wordOf {bytes : List Byte} (h : bytes.length ≤ 3) :
    tableWordBytes (8 * bytes.length) (wordOf bytes) = bytes ++ List.replicate (3 - bytes.length) 0 := by
  rw [tableWordBytes, Nat.mod_eq_of_lt (wordOf_lt bytes), show 2 ^ 16 = 2 ^ 8 * 2 ^ 8 from rfl, ← Nat.div_div_eq_div_mul]
  match bytes, h with
  | [], _ => rfl
  | [_], _ | [_, _], _ | [_, _, _], _ => simp only [ofNat_wordOf_cons, wordOf_cons_div]; rfl

/-- The table word of an instruction starts with its encoding. -/
theorem tableWordBytes_encode (i : Instr) :
    tableWordBytes (8 * i.width) (wordOf (encode i)) = encode i ++ List.replicate (3 - i.width) 0 := by
  have hlen := encode_length i
  have hle : (encode i).length ≤ 3 := hlen ▸ i.width_le
  rw [← hlen]
  exact tableWordBytes_wordOf hle

theorem decodeTableWord_encode (i : Instr) : decodeTableWord (8 * i.width) (wordOf (encode i)) = some i := by
  rw [decodeTableWord, tableWordBytes_encode, decode_encode_append]

end Sys2Proof

namespace Sys2Proof.Machine

/-- Reading after storing a run of bytes: the bytes stand in order from the address on, up to the top of memory. -/
theorem Memory.read_storeFrom (m : Memory) {a k : Nat} {bytes : List Byte} (hk : k < bytes.length) (hak : a + k < 256) :
    bytes[k]? = some ((m.storeFrom a bytes).read (a + k)) := by
  induction bytes generalizing m a k with
  | nil => exact absurd hk (Nat.not_lt_zero k)
  | cons b bytes ih =>
    have ha : a < Config.memSize := Nat.lt_of_le_of_lt (Nat.le_add_right a k) hak
    rw [Memory.storeFrom, if_pos ha]
    cases k with
    | zero =>
      have hfirst : ((m.write a b).storeFrom (a + 1) bytes).read a = b := by
        rw [Memory.read_storeFrom_below _ (Nat.lt_add_one a), Memory.read_write_same]
      exact congrArg some hfirst.symm
    | succ k =>
      rw [List.getElem?_cons_succ, show a + (k + 1) = a + 1 + k by omega]
      exact ih _ (Nat.lt_of_succ_lt_succ hk) (by omega)

/-- Placing an instruction's table word puts the instruction at pc, where there is room for it. -/
theorem instructionAtPc_withFetchWord {s : State} {i : Instr} (h : s.pc.toNat + i.width ≤ 256) :
    Claims.InstructionAtPc (s.withFetchWord (8 * i.width) (Claims.wordOf (encode i))) i := by
  refine ⟨h, fun k hk => ?_⟩
  have hke : k < (encode i).length := encode_length i ▸ hk
  rw [State.withFetchWord, placeTableWord, tableWordBytes_encode, State.setMem_mem, State.setMem_pc,
    ← Memory.read_storeFrom _ (by rw [List.length_append]; omega) (by omega), List.getElem?_append_left hke]

end Sys2Proof.Machine
end

section
/-! SUPPORT. An instruction whose register operands name registers makes no BadRegister record (R62, R66). -/

namespace Sys2Proof.Machine

/-- The result's next state, if it is one, has no BadRegister record. -/
def NoBadRegister (x : Result) : Prop := ∀ t info, x = .next t → t.run ≠ .faulted .badRegister info

variable {s : State}

theorem noBadRegister_next (h : ∀ info, s.run ≠ .faulted .badRegister info) : NoBadRegister (.next s) := by
  intro t info ht
  cases ht
  exact h info

theorem raise_noBadRegister {kind : ErrorKind} (hkind : kind ≠ .badRegister) (info : Int) (s : State) :
    NoBadRegister (raise kind info s) :=
  noBadRegister_next fun _ he => hkind (RunState.faulted.inj he).1

theorem checkReg_noBadRegister {b : Byte} {k : RegIx → Result} (hb : namesRegister b = true)
    (hk : ∀ r, NoBadRegister (k r)) : NoBadRegister (checkReg b s k) := by
  rcases checkReg_cases b s k with ⟨r, _, h⟩ | ⟨hbad, _⟩
  · exact h ▸ hk r
  · exact absurd (of_decide_eq_true hb) (Nat.not_le.2 hbad)

/-- A state that is still Running makes no record by going on. -/
theorem noBadRegister_next_of_running (hrun : s.run = .running) : NoBadRegister (.next s) :=
  noBadRegister_next fun _ he => by rw [hrun] at he; cases he

theorem advance_noBadRegister (hrun : s.run = .running) (w : Nat) : NoBadRegister (advance w s) := by
  rcases advance_cases w s with ⟨_, h⟩ | ⟨_, h⟩ <;> rw [h]
  · exact noBadRegister_next_of_running hrun
  · exact raise_noBadRegister (by decide) _ s

theorem jumpTo_noBadRegister (hrun : s.run = .running) (r : RegIx) : NoBadRegister (jumpTo r s) :=
  noBadRegister_next_of_running hrun

theorem applyAlu_noBadRegister (hrun : s.run = .running) (ra rb : RegIx) (x : AluOutcome) :
    NoBadRegister (applyAlu ra rb s x) := by
  cases x with
  | value v =>
    rw [applyAlu_value]
    exact advance_noBadRegister (by simpa using hrun) 3
  | flags f =>
    rw [applyAlu_flags]
    exact advance_noBadRegister (by simpa using hrun) 3
  | divideByZero | unsupportedOperation op => exact raise_noBadRegister (by decide) _ s

theorem runAlu_noBadRegister (hrun : s.run = .running) (op : Byte) {a b : Byte}
    (h : (namesRegister a && namesRegister b) = true) : NoBadRegister (runAlu op a b s) := by
  obtain ⟨ha, hb⟩ := Bool.and_eq_true_iff.1 h
  exact checkReg_noBadRegister ha fun ra => checkReg_noBadRegister hb fun rb => applyAlu_noBadRegister hrun ra rb _

theorem exec_noBadRegister (hrun : s.run = .running) {i : Instr} (hi : i.wellFormed = true) :
    NoBadRegister (exec i s) := by
  cases i with
  | hlt =>
    rcases exec_hlt_cases s with ⟨_, h⟩ | ⟨_, h⟩ <;> rw [h] <;> exact noBadRegister_next nofun
  | ldi a imm =>
    rw [exec_ldi]
    exact checkReg_noBadRegister hi fun ra => advance_noBadRegister (by simpa using hrun) 3
  | prn a =>
    rw [exec_prn]
    exact checkReg_noBadRegister hi fun ra => advance_noBadRegister (by simpa using hrun) 2
  | mul a b | and a b | or a b | xor a b | shl a b | shr a b | mod a b | not a b | cmp a b =>
    exact runAlu_noBadRegister hrun _ hi
  | push a =>
    rw [exec_push]
    refine checkReg_noBadRegister hi fun ra => ?_
    rcases memWrite_cases (pushAddress s) (s.reg ra) s _ with ⟨_, h⟩ | ⟨_, h⟩ <;> rw [h]
    · exact advance_noBadRegister (by simpa using hrun) 2
    · exact raise_noBadRegister (by decide) _ s
  | pop a =>
    rw [exec_pop]
    refine checkReg_noBadRegister hi fun ra => ?_
    split
    · exact raise_noBadRegister (by decide) _ s
    · rcases memRead_cases s.sp.toNat s _ with ⟨_, h⟩ | ⟨_, h⟩ <;> rw [h]
      · exact advance_noBadRegister (by simpa using hrun) 2
      · exact raise_noBadRegister (by decide) _ s
  | jmp a => exact checkReg_noBadRegister hi fun ra => jumpTo_noBadRegister hrun ra
  | jeq a =>
    rw [exec_jeq]
    refine checkReg_noBadRegister hi fun ra => ?_
    split
    · exact jumpTo_noBadRegister hrun ra
    · exact advance_noBadRegister hrun 2
  | jne a =>
    rw [exec_jne]
    refine checkReg_noBadRegister hi fun ra => ?_
    split
    · exact advance_noBadRegister hrun 2
    · exact jumpTo_noBadRegister hrun ra

/-- A Running state with a byte outside the map at pc steps into the fault that names it (R66). -/
theorem step_of_notMem_opcodes (hrun : s.run = .running) (h : s.mem.read s.pc.toNat ∉ Claims.opcodes) :
    step s = .next (s.setRun (.faulted .unsupportedOpcode (s.mem.read s.pc.toNat).toNat)) := by
  obtain ⟨rest, hfetch, _⟩ := fetchBytes_eq_cons s
  have hop : s.cell s.pc.toNat ∉ Claims.opcodes := h
  rw [step_running hrun, hfetch, decode_cons_of_notMem_opcodes hop, execDecoded_unsupportedOpcode, raise_eq]
  rfl

theorem namesRegister_regByte (r : RegIx) : namesRegister (regByte r) = true := by
  have := r.isLt
  rw [namesRegister, regByte_toNat]
  exact decide_eq_true (by omega)

end Sys2Proof.Machine
end

section
/-! PROOFS. The encoding (spec/30_encoding.md). -/

namespace Sys2Proof.Machine

/-- Settles O3: what decodes starts with the instruction's encoding, and an encoding decodes whatever follows it. -/
theorem decodeAndEncodeAgree : Obligations.DecodeAndEncodeAgree := by
  intro bytes rest i
  refine ⟨encode_of_decode, ?_⟩
  rintro rfl
  exact decode_encode_append i rest

/-- Settles O4, by whether there is an opcode byte. -/
theorem decodeRejectsExactlyTheRest : Obligations.DecodeRejectsExactlyTheRest := by
  intro bytes
  refine ⟨fun op => decode_unsupported_iff, fun k => ?_⟩
  cases bytes with
  | nil =>
    simp only [decode_nil, DecodeResult.missingByte.injEq, List.length_nil, List.head?_nil, reduceCtorEq, and_false,
      exists_false, or_false]
    omega
  | cons op rest =>
    rw [decode_cons_missingByte_iff, List.length_cons]
    refine and_congr_right fun hk => ?_
    have hk0 : k ≠ 0 := by omega
    simp only [hk0, false_or, List.head?_cons, Option.some.injEq, exists_eq_right']

/-- Settles O5: the word's bytes start with the encoding, and placed at pc they are the instruction at pc. -/
theorem tableWordsDecodeAndRun : Obligations.TableWordsDecodeAndRun := fun i =>
  ⟨decodeTableWord_encode i, fun _ hrun hroom => step_of_instructionAtPc hrun (instructionAtPc_withFetchWord hroom)⟩

/-- Settles O10: the fetch delivers the opcode byte, which the map does not list; of a listed one two operand bytes are enough,
and register bytes of a well-formed instruction pass their checks. -/
theorem unsupportedOpcodeFaults : Obligations.UnsupportedOpcodeFaults :=
  ⟨fun _ hrun h => step_of_notMem_opcodes hrun h, by decide, length_unsupportedOpcodes,
    fun _ hop a b => exists_decode_ok_of_mem_opcodes hop a b,
    fun _ _ t info hi hrun h => exec_noBadRegister hrun hi t info h⟩

/-- Settles O2: each row's bytes are the encoding of its instruction. -/
theorem opcodeBytesDecodeAsTabled : Obligations.OpcodeBytesDecodeAsTabled := by
  intro a b rest
  exact ⟨decode_encode_append .hlt rest, decode_encode_append (.ldi a b) rest, decode_encode_append (.prn a) rest,
    decode_encode_append (.mul a b) rest, decode_encode_append (.and a b) rest, decode_encode_append (.or a b) rest,
    decode_encode_append (.xor a b) rest, decode_encode_append (.shl a b) rest, decode_encode_append (.shr a b) rest,
    decode_encode_append (.mod a b) rest, decode_encode_append (.not a b) rest, decode_encode_append (.cmp a b) rest,
    decode_encode_append (.push a) rest, decode_encode_append (.pop a) rest, decode_encode_append (.jmp a) rest,
    decode_encode_append (.jeq a) rest, decode_encode_append (.jne a) rest⟩

/-- Settles O53: LDI writes the operand byte itself, and it is checked for no register. -/
theorem immediateIsTheWholeByte : Obligations.ImmediateIsTheWholeByte := by
  refine ⟨fun s r opB hpc => ?_, fun r _ => namesRegister_regByte r⟩
  rw [exec_ldi, checkReg_regByte, advance_of_le (by rw [State.setReg_pc]; omega)]
  exact ⟨_, rfl, congrArg BitVec.toNat (State.reg_setReg_same s r opB)⟩

end Sys2Proof.Machine
end

section
/-! SUPPORT. How the instructions that check one register and advance meet the clauses their statements share: the writes with
the advance, the bad register byte, the operand byte above memory. -/

namespace Sys2Proof.Machine

open Claims

/-- An instruction that ends in an advance after writes that keep pc (R154, R155). -/
theorem writesThenAdvances_of_exec_eq_advance {w : Nat} {i : Instr} {s t : State} (h : exec i s = advance w t)
    (hpc : t.pc = s.pc) : WritesThenAdvances w i s t := by
  rw [WritesThenAdvances, h, ← hpc]
  exact ⟨advance_of_le, advance_of_gt⟩

/-- An instruction that begins with the check of its operand byte faults on a bad one, whatever it goes on with (R62). -/
theorem badRegisterFaults_of_exec_eq_checkReg {mk : Byte → Instr} {k : State → RegIx → Result}
    (h : ∀ a s, exec (mk a) s = checkReg a s (k s)) : BadRegisterFaults mk :=
  fun s a ha => (h a s).trans (checkReg_bad ha s (k s))

/-- With fewer bytes up to the top of memory than the format of the opcode byte takes, the first one missing is at address
256 (R54). -/
theorem operandAboveMemoryFaults_of_lookup {op : Byte} {row : OpcodeRow} (hrow : lookupOpcode op = some row) :
    OperandAboveMemoryFaults op row.form.width := by
  intro s hrun hop habove
  obtain ⟨rest, hfetch, _⟩ := fetchBytes_eq_cons s
  have hlen := fetchBytes_length s
  rw [hfetch, List.length_cons] at hlen
  have hcell : s.cell s.pc.toNat = op := hop
  have hwidth := row.form.width_le
  have hmissing : decode (fetchBytes s) = .missingByte (rest.length + 1) := by
    rw [hfetch, hcell, decode_cons_of_lookup hrow, take_missingByte_iff]
    omega
  have haddr : (s.pc.toNat : Int) + (rest.length + 1 : Nat) = 256 := by
    exact_mod_cast missingByte_address hmissing
  rw [step_running hrun, hmissing, execDecoded_missingByte, haddr, raise_eq]
  rfl

/-- With HLT's byte at pc, HLT is the instruction there, at every address: it takes no operand byte (R60, R80). -/
theorem instructionAtPc_hlt {s : State} (h : s.mem.read s.pc.toNat = Opcode.hlt) : InstructionAtPc s .hlt := by
  refine ⟨s.pc.isLt, fun k hk => ?_⟩
  obtain rfl : k = 0 := Nat.lt_one_iff.1 hk
  exact congrArg some h.symm

end Sys2Proof.Machine
end

section
/-! PROOFS. HLT, LDI and PRN (spec/40_basic.md). -/

namespace Sys2Proof.Machine

/-- Settles O11, by the two cases of HLT's pc; its one byte is always in memory. -/
theorem hltHalts : Obligations.HltHalts := by
  intro s
  refine ⟨fun hpc => ?_, fun hpc => ?_, fun hrun hop => step_of_instructionAtPc hrun (instructionAtPc_hlt hop)⟩
  · obtain ⟨_, h⟩ := (exec_hlt_cases s).resolve_right (by omega)
    exact h
  · obtain ⟨_, h⟩ := (exec_hlt_cases s).resolve_left (by omega)
    exact h

/-- Settles O12: LDI is the register check, one `setReg` and the advance. -/
theorem ldiLoadsImmediate : Obligations.LdiLoadsImmediate :=
  ⟨fun s ra _ => writesThenAdvances_of_exec_eq_advance ((exec_ldi ..).trans (checkReg_regByte ra s _)) rfl,
    fun imm => badRegisterFaults_of_exec_eq_checkReg fun a s => exec_ldi a imm s,
    operandAboveMemoryFaults_of_lookup lookup_ldi⟩

/-- Settles O13: PRN is the register check, one `emit` and the advance. -/
theorem prnEmits : Obligations.PrnEmits :=
  ⟨fun s ra => writesThenAdvances_of_exec_eq_advance ((exec_prn ..).trans (checkReg_regByte ra s _)) rfl,
    badRegisterFaults_of_exec_eq_checkReg exec_prn,
    operandAboveMemoryFaults_of_lookup lookup_prn⟩

end Sys2Proof.Machine
end

section
/-! SUPPORT. What the ALU answers inside and outside its nine operations, and the values of its operations as the spec writes
them (spec/41_alu.md). -/

namespace Sys2Proof.Machine

variable {op : Byte}

/-- Outside the nine the ALU answers with the operation itself (R91). -/
theorem alu_of_notMem (h : op ∉ Claims.aluOperations) (x y : Byte) : alu op x y = .unsupportedOperation op := by
  simp only [Claims.aluOperations, List.mem_cons, List.not_mem_nil, or_false, not_or] at h
  obtain ⟨hmul, hand, hor, hxor, hshl, hshr, hmod, hnot, hcmp⟩ := h
  rw [alu, if_neg hmul, if_neg hand, if_neg hor, if_neg hxor, if_neg hshl, if_neg hshr, if_neg hmod, if_neg hnot, if_neg hcmp]

/-- Of the nine the ALU refuses none (R91). -/
theorem alu_ne_unsupported (h : op ∈ Claims.aluOperations) (x y code : Byte) : alu op x y ≠ .unsupportedOperation code := by
  simp only [Claims.aluOperations, List.mem_cons, List.not_mem_nil, or_false] at h
  have hmod : alu Opcode.mod x y ≠ .unsupportedOperation code := by
    rw [alu_mod]
    split <;> nofun
  rcases h with rfl | rfl | rfl | rfl | rfl | rfl | rfl | rfl | rfl
  exacts [nofun, nofun, nofun, nofun, nofun, nofun, hmod, nofun, nofun]

/-- An instruction run from Running never ends in the ALU's refusal: it is no `Effect` (R91). -/
theorem exec_run_ne_unsupportedOperation {i : Instr} {s t : State} (hrun : s.run = .running) (h : exec i s = .next t)
    (info : Int) : t.run ≠ .faulted .unsupportedOperation info := by
  cases exec_effect h with
  | advanced hw _ => simp [hw.pc_run.2, hrun]
  | jmp _ | jeqTaken _ _ | jneTaken _ _ => simp [hrun]
  | halted _ | haltedAtTop _ | badRegister _ _ _ | advanceFault _ _ | stackFull _ _ | stackUnderflow _ _
  | divideByZero _ _ _ => simp

/-! ### Values -/

theorem aluMul_eq_mod (x y : Byte) : aluMul x y = BitVec.ofNat 8 (x.toNat * y.toNat % 256) :=
  BitVec.eq_of_toNat_eq (by simp [aluMul])

theorem aluMul_comm (x y : Byte) : aluMul x y = aluMul y x := by
  rw [aluMul, aluMul, Nat.mul_comm]

/-- From an amount of 8 on every bit is shifted out to the left (R96). -/
theorem aluShl_eq (x n : Byte) :
    aluShl x n = if 8 ≤ n.toNat then 0 else BitVec.ofNat 8 (x.toNat * 2 ^ n.toNat % 256) := by
  apply BitVec.eq_of_toNat_eq
  split
  · next h =>
    have hdvd : 2 ^ 8 ∣ x.toNat * 2 ^ n.toNat := (pow_dvd_pow 2 h).mul_left x.toNat
    rw [aluShl, BitVec.toNat_ofNat, Nat.mod_eq_zero_of_dvd hdvd]
    rfl
  · simp [aluShl]

/-- From an amount of 8 on every bit is shifted out to the right (R97). -/
theorem aluShr_eq (x n : Byte) :
    aluShr x n = if 8 ≤ n.toNat then 0 else BitVec.ofNat 8 (x.toNat / 2 ^ n.toNat) := by
  split
  · next h =>
    have hlt : x.toNat < 2 ^ n.toNat := x.isLt.trans_le (Nat.pow_le_pow_right (by decide) h)
    rw [aluShr, Nat.div_eq_of_lt hlt]
    rfl
  · rfl

/-- 255 - y is y with every bit inverted (R99). -/
theorem aluNot_eq_not (y : Byte) : aluNot y = ~~~y := by
  apply BitVec.eq_of_toNat_eq
  rw [aluNot, BitVec.toNat_ofNat, BitVec.toNat_not]
  omega

theorem compareFlags_of_eq {x y : Byte} (h : x.toNat = y.toNat) : compareFlags x y = ⟨true, false, false⟩ :=
  ((compareFlags_cases x y).resolve_right (by omega)).2

theorem compareFlags_of_gt {x y : Byte} (h : y.toNat < x.toNat) : compareFlags x y = ⟨false, true, false⟩ :=
  (((compareFlags_cases x y).resolve_left (by omega)).resolve_right (by omega)).2

theorem compareFlags_of_lt {x y : Byte} (h : x.toNat < y.toNat) : compareFlags x y = ⟨false, false, true⟩ :=
  (((compareFlags_cases x y).resolve_left (by omega)).resolve_left (by omega)).2

end Sys2Proof.Machine
end

section
/-! SUPPORT. How an instruction that is `runAlu` of an operation meets the clauses the ALU statements share. -/

namespace Sys2Proof.Machine

open Claims

variable {op : Byte} {mk : Byte → Byte → Instr} {value : Byte → Byte → Byte} {bit : Bool → Bool → Bool}
variable (hexec : ∀ a b s, exec (mk a b) s = runAlu op a b s)
include hexec

/-- With operand bytes that name registers, what is left of the instruction is to apply the ALU's answer. -/
theorem exec_regByte_of_alu {s : State} {ra rb : RegIx} {x : AluOutcome} (h : alu op (s.reg ra) (s.reg rb) = x) :
    exec (mk (regByte ra) (regByte rb)) s = applyAlu ra rb s x := by
  rw [hexec, runAlu_regByte, h]

theorem writesThenAdvances_of_alu_value {s : State} {ra rb : RegIx} {v : Byte}
    (h : alu op (s.reg ra) (s.reg rb) = .value v) :
    WritesThenAdvances 3 (mk (regByte ra) (regByte rb)) s (s.setReg ra v) :=
  writesThenAdvances_of_exec_eq_advance (exec_regByte_of_alu hexec h) rfl

theorem writesThenAdvances_of_alu_flags {s : State} {ra rb : RegIx} {f : Flags}
    (h : alu op (s.reg ra) (s.reg rb) = .flags f) :
    WritesThenAdvances 3 (mk (regByte ra) (regByte rb)) s (s.setFlags f) :=
  writesThenAdvances_of_exec_eq_advance (exec_regByte_of_alu hexec h) rfl

/-- Operand A is checked first, whatever B is, then operand B (R132). -/
theorem badRegistersFault_of_exec_eq_runAlu : BadRegistersFault mk := by
  intro s a b
  refine ⟨fun ha => (hexec a b s).trans (runAlu_badA op ha b s), fun ha hb => ?_⟩
  obtain ⟨ra, rfl⟩ := (operandByte_cases a).resolve_right (by omega)
  exact (hexec _ b s).trans (runAlu_badB op ra hb s)

variable (hrow : lookupOpcode op = some ⟨op, .f3 mk⟩)
include hrow

/-- An ALU instruction whose operation always gives a value. -/
theorem aluWrites_of_alu_value (hvalue : ∀ x y, alu op x y = .value (value x y)) : AluWrites op mk value :=
  ⟨fun _ _ _ => writesThenAdvances_of_alu_value hexec (hvalue _ _), badRegistersFault_of_exec_eq_runAlu hexec,
    operandAboveMemoryFaults_of_lookup hrow⟩

/-- The same, of a value known by its eight bits: they pin the byte written. -/
theorem aluWritesBits_of_alu_value (hvalue : ∀ x y, alu op x y = .value (value x y))
    (hbit : ∀ x y, ∀ k < 8, (value x y).getLsbD k = bit (x.getLsbD k) (y.getLsbD k)) : AluWritesBits op mk bit := by
  refine ⟨fun s ra rb v hv => ?_, badRegistersFault_of_exec_eq_runAlu hexec, operandAboveMemoryFaults_of_lookup hrow⟩
  have he : v = value (s.reg ra) (s.reg rb) :=
    BitVec.eq_of_getLsbD_eq fun k hk => (hv k hk).trans (hbit _ _ k hk).symm
  exact writesThenAdvances_of_alu_value hexec (he ▸ hvalue _ _)

end Sys2Proof.Machine
end

section
/-! PROOFS. The ALU instructions (spec/41_alu.md). -/

namespace Sys2Proof.Machine

/-- Settles O20: the refusal is what the ALU answers outside the nine, `runAlu` raises it before any write, and neither an
instruction nor a fetch fault is that record. -/
theorem unsupportedOperationOutsideTheAluSet : Obligations.UnsupportedOperationOutsideTheAluSet := by
  refine ⟨fun op x y h => alu_of_notMem h x y, fun op x y code h => alu_ne_unsupported h x y code,
    fun op ra rb s h => ?_, fun s t h info => ?_⟩
  · rw [runAlu_regByte, alu_of_notMem h, applyAlu_unsupportedOperation, raise_eq]
    rfl
  · obtain ⟨hrun, ⟨i, _, _, hx⟩ | ⟨_, _, rfl⟩ | ⟨_, _, rfl⟩⟩ := step_cases h
    · exact exec_run_ne_unsupportedOperation hrun hx info
    · simp
    · simp

/-- Settles O14: `aluMul` is the product mod 256, and commutes with it. -/
theorem mulWritesProductModulo256 : Obligations.MulWritesProductModulo256 := by
  refine ⟨aluWrites_of_alu_value exec_mul lookup_mul fun x y => ?_, fun x y => ?_⟩
  · rw [alu_mul, aluMul_eq_mod]
  · rw [alu_mul, alu_mul, aluMul_comm]

/-- Settles O15: the bits of `&&&`, `|||` and `^^^`. -/
theorem andOrXorWriteBitwiseResults : Obligations.AndOrXorWriteBitwiseResults :=
  ⟨aluWritesBits_of_alu_value exec_and lookup_and alu_and fun _ _ _ _ => BitVec.getLsbD_and,
    aluWritesBits_of_alu_value exec_or lookup_or alu_or fun _ _ _ _ => BitVec.getLsbD_or,
    aluWritesBits_of_alu_value exec_xor lookup_xor alu_xor fun _ _ _ _ => BitVec.getLsbD_xor⟩

/-- Settles O16, by the shifts' values below and from an amount of 8. -/
theorem shiftsUseTheWholeAmount : Obligations.ShiftsUseTheWholeAmount := by
  refine ⟨aluWrites_of_alu_value exec_shl lookup_shl fun x n => ?_, aluWrites_of_alu_value exec_shr lookup_shr fun x n => ?_⟩
  · rw [alu_shl, aluShl_eq]
  · rw [alu_shr, aluShr_eq]

/-- Settles O17, by whether the divisor is 0. -/
theorem modWritesRemainderOrFaults : Obligations.ModWritesRemainderOrFaults := by
  refine ⟨fun s ra rb hne => ?_, fun s ra rb hz => ?_, badRegistersFault_of_exec_eq_runAlu exec_mod,
    operandAboveMemoryFaults_of_lookup lookup_mod⟩
  · have hdivisor : s.reg rb ≠ 0 := fun h => hne (congrArg BitVec.toNat h)
    exact writesThenAdvances_of_alu_value exec_mod ((alu_mod _ _).trans (if_neg hdivisor))
  · have hdivisor : s.reg rb = 0 := BitVec.eq_of_toNat_eq hz
    exact exec_regByte_of_alu exec_mod ((alu_mod _ _).trans (if_pos hdivisor))

/-- Settles O18: the bits of the complement. -/
theorem notWritesComplement : Obligations.NotWritesComplement := by
  refine aluWritesBits_of_alu_value exec_not lookup_not alu_not fun _ y k hk => ?_
  rw [aluNot_eq_not, BitVec.getLsbD_not, decide_eq_true hk, Bool.true_and]

/-- Settles O19, by the unsigned order of the two registers. -/
theorem cmpSetsExactlyOneFlag : Obligations.CmpSetsExactlyOneFlag := by
  have hwrites {s : State} {ra rb : RegIx} {f : Flags} (h : compareFlags (s.reg ra) (s.reg rb) = f) :=
    writesThenAdvances_of_alu_flags exec_cmp ((alu_cmp _ _).trans (congrArg AluOutcome.flags h))
  exact ⟨fun s ra rb => ⟨fun h => hwrites (compareFlags_of_eq h), fun h => hwrites (compareFlags_of_gt h),
      fun h => hwrites (compareFlags_of_lt h)⟩,
    badRegistersFault_of_exec_eq_runAlu exec_cmp, operandAboveMemoryFaults_of_lookup lookup_cmp⟩

end Sys2Proof.Machine
end

section
/-! SUPPORT. What PUSH and POP leave, field by field, where their advance stays in memory (spec/42_stack.md R111, R112). -/

namespace Sys2Proof.Machine

variable {s : State}

/-- sp + 1 is reduced mod 256 on both sides, so POP's new sp agrees at 0xFF too (R112). -/
theorem sp_succ_eq_ofNat (s : State) : s.sp + 1 = BitVec.ofNat 8 (s.sp.toNat + 1) := by
  rw [BitVec.ofNat_add, BitVec.ofNat_toNat, BitVec.setWidth_eq]
  rfl

/-- PUSH with room below sp: the store is all that memory sees, and sp is one lower (R111). -/
theorem exec_push_completes (r : RegIx) (hsp : 1 ≤ s.sp.toNat) (hpc : s.pc.toNat + 2 ≤ 255) :
    ∃ t, exec (.push (regByte r)) s = .next t ∧ t.mem = s.mem.write (s.sp.toNat - 1) (s.reg r) ∧
      t.sp.toNat + 1 = s.sp.toNat ∧ t.pc.toNat = s.pc.toNat + 2 ∧ t.run = s.run ∧ ∀ r', t.reg r' = s.reg r' := by
  obtain ⟨_, h⟩ := (exec_push_cases r s).resolve_right (by omega)
  exact ⟨_, h.trans (advance_of_le hpc), rfl, sp_pred_toNat hsp,
    (BitVec.toNat_ofNat ..).trans (Nat.mod_eq_of_lt (Nat.lt_succ_of_le hpc)), rfl, fun _ => rfl⟩

/-- POP below the sentinel: the cell at sp is in the register and still in memory, and sp is one higher (R112). -/
theorem exec_pop_completes (r : RegIx) (hsp : s.sp.toNat < 0xF4) (hpc : s.pc.toNat + 2 ≤ 255) :
    ∃ t, exec (.pop (regByte r)) s = .next t ∧ t.reg r = s.mem.read s.sp.toNat ∧ (∀ r', r' ≠ r → t.reg r' = s.reg r') ∧
      t.sp.toNat = s.sp.toNat + 1 ∧ t.run = s.run ∧ t.mem = s.mem := by
  obtain ⟨_, h⟩ := (exec_pop_cases r s).resolve_right (by omega)
  exact ⟨_, h.trans (advance_of_le hpc), State.reg_setReg_same .., fun r' hr => State.reg_setReg_other s r r' _ hr,
    sp_succ_toNat hsp, rfl, rfl⟩

end Sys2Proof.Machine
end

section
/-! PROOFS. The stack (spec/42_stack.md). -/

namespace Sys2Proof.Machine

/-- Settles O21, by the two cases of PUSH of a register. -/
theorem pushStoresBelowSp : Obligations.PushStoresBelowSp := by
  refine ⟨fun s ra hsp => ?_, fun s ra hsp => ?_, badRegisterFaults_of_exec_eq_checkReg exec_push,
    operandAboveMemoryFaults_of_lookup lookup_push⟩
  · obtain ⟨_, h⟩ := (exec_push_cases ra s).resolve_right (by omega)
    exact writesThenAdvances_of_exec_eq_advance h rfl
  · obtain ⟨_, h⟩ := (exec_push_cases ra s).resolve_left (by omega)
    exact h

/-- Settles O22, by the two cases of POP into a register. -/
theorem popLoadsAtSp : Obligations.PopLoadsAtSp := by
  refine ⟨fun s ra hsp => ?_, fun s ra hsp => ?_, badRegisterFaults_of_exec_eq_checkReg exec_pop,
    operandAboveMemoryFaults_of_lookup lookup_pop⟩
  · obtain ⟨_, h⟩ := (exec_pop_cases ra s).resolve_right (by omega)
    rw [sp_succ_eq_ofNat] at h
    exact writesThenAdvances_of_exec_eq_advance h rfl
  · obtain ⟨_, h⟩ := (exec_pop_cases ra s).resolve_left (by omega)
    exact h

/-- Settles O23: PUSH leaves sp below the sentinel, at the cell it stored to, so POP loads that cell and keeps it. -/
theorem pushThenPopRoundTrips : Obligations.PushThenPopRoundTrips := by
  intro s ra rb hsp hsentinel hpc
  obtain ⟨t, hpush, hmem, htsp, htpc, htrun, htreg⟩ := exec_push_completes ra hsp (by omega)
  obtain ⟨u, hpop, hval, hother, husp, hurun, humem⟩ := exec_pop_completes (s := t) rb (by omega) (by omega)
  have hcell : t.mem.read (s.sp.toNat - 1) = s.reg ra := by rw [hmem, Memory.read_write_same]
  have haddr : t.sp.toNat = s.sp.toNat - 1 := by omega
  refine ⟨t, u, hpush, hpop, ?_, fun r hr => (hother r hr).trans (htreg r), BitVec.eq_of_toNat_eq (husp.trans htsp),
    hurun.trans htrun, ?_⟩
  · rw [hval, haddr, hcell]
  · rw [humem, hcell]

end Sys2Proof.Machine
end

section
/-! SUPPORT. The two outcomes of a jump whose operand byte names a register: pc becomes the register's value (spec/43_jumps.md
R120), or the instruction is its advance alone (R122, R123). -/

namespace Sys2Proof.Machine

variable {s : State}

theorem jumpTo_eq (r : RegIx) (s : State) : jumpTo r s = .next { s with pc := s.reg r } := rfl

theorem exec_jmp_regByte (r : RegIx) (s : State) : exec (.jmp (regByte r)) s = .next { s with pc := s.reg r } := by
  rw [exec_jmp, checkReg_regByte, jumpTo_eq]

theorem exec_jeq_taken (r : RegIx) (he : s.flags.e = true) :
    exec (.jeq (regByte r)) s = .next { s with pc := s.reg r } := by
  rw [exec_jeq, checkReg_regByte, if_pos he, jumpTo_eq]

theorem exec_jeq_notTaken (r : RegIx) (he : s.flags.e = false) : exec (.jeq (regByte r)) s = advance 2 s := by
  rw [exec_jeq, checkReg_regByte, if_neg (ne_true_of_eq_false he)]

theorem exec_jne_taken (r : RegIx) (he : s.flags.e = false) :
    exec (.jne (regByte r)) s = .next { s with pc := s.reg r } := by
  rw [exec_jne, checkReg_regByte, if_neg (ne_true_of_eq_false he), jumpTo_eq]

theorem exec_jne_notTaken (r : RegIx) (he : s.flags.e = true) : exec (.jne (regByte r)) s = advance 2 s := by
  rw [exec_jne, checkReg_regByte, if_pos he]

end Sys2Proof.Machine
end

section
/-! PROOFS. The jumps (spec/43_jumps.md). -/

namespace Sys2Proof.Machine

/-- Settles O25: JMP is the register check and the jump. -/
theorem jmpSetsPc : Obligations.JmpSetsPc :=
  ⟨fun s ra => exec_jmp_regByte ra s, badRegisterFaults_of_exec_eq_checkReg exec_jmp,
    operandAboveMemoryFaults_of_lookup lookup_jmp⟩

/-- Settles O26, by E; the register check comes before E is looked at. -/
theorem jeqJumpsOnEqual : Obligations.JeqJumpsOnEqual :=
  ⟨fun _ ra he => exec_jeq_taken ra he,
    fun _ ra he => writesThenAdvances_of_exec_eq_advance (exec_jeq_notTaken ra he) rfl,
    badRegisterFaults_of_exec_eq_checkReg exec_jeq, operandAboveMemoryFaults_of_lookup lookup_jeq, rfl⟩

/-- Settles O27, by E; the register check comes before E is looked at. -/
theorem jneJumpsOnNotEqual : Obligations.JneJumpsOnNotEqual :=
  ⟨fun _ ra he => exec_jne_taken ra he,
    fun _ ra he => writesThenAdvances_of_exec_eq_advance (exec_jne_notTaken ra he) rfl,
    badRegisterFaults_of_exec_eq_checkReg exec_jne, operandAboveMemoryFaults_of_lookup lookup_jne, rfl⟩

end Sys2Proof.Machine
end

section
/-! SUPPORT. What the run state can become: which fault an instruction enters before its writes, and the one it enters after
them (spec/60_exceptions.md R131, R134). -/

namespace Sys2Proof.Machine

/-- The faults an instruction can enter with nothing written, by R131's columns: PUSH's OutOfBounds is its full stack. -/
inductive FaultsBeforeWrites : Instr → ErrorKind → Prop where
  | badRegister {i : Instr} (hi : i ≠ .hlt) : FaultsBeforeWrites i .badRegister
  | stackFull (a : Byte) : FaultsBeforeWrites (.push a) .outOfBounds
  | stackUnderflow (a : Byte) : FaultsBeforeWrites (.pop a) .stackUnderflow
  | divideByZero (a b : Byte) : FaultsBeforeWrites (.mod a b) .divideByZero

variable {i : Instr} {s t : State} {kind : ErrorKind} {info : Int}

/-- HLT and JMP come to no sequential advance (R80, R121). -/
theorem Writes.ne_hlt_jmp (h : Writes i s t) : i ≠ .hlt ∧ ∀ a, i ≠ .jmp a := by
  cases h with
  | register a b r v hi _ => exact ⟨by rintro rfl; simp at hi, by rintro _ rfl; simp at hi⟩
  | output _ | flags _ _ _ _ | push _ _ | pop _ _ | jeqNotTaken _ _ | jneNotTaken _ _ => exact ⟨nofun, nofun⟩

/-- An instruction keeps the run state, or is HLT and halts, or faults before its writes, or faults in the advance after
them. -/
theorem exec_run_cases (h : exec i s = .next t) :
    t.run = s.run ∨ (i = .hlt ∧ t.run = .halted) ∨
    (∃ kind info, FaultsBeforeWrites i kind ∧ t = s.setRun (.faulted kind info)) ∨
    (∃ u, Writes i s u ∧ 255 < s.pc.toNat + i.width ∧
      t = u.setRun (.faulted .outOfBounds (s.pc.toNat + i.width))) := by
  cases exec_effect h with
  | halted _ | haltedAtTop _ => exact .inr (.inl ⟨rfl, rfl⟩)
  | badRegister x hi _ => exact .inr (.inr (.inl ⟨_, _, .badRegister hi, rfl⟩))
  | stackFull r _ => exact .inr (.inr (.inl ⟨_, _, .stackFull _, rfl⟩))
  | stackUnderflow r _ => exact .inr (.inr (.inl ⟨_, _, .stackUnderflow _, rfl⟩))
  | divideByZero ra rb _ => exact .inr (.inr (.inl ⟨_, _, .divideByZero _ _, rfl⟩))
  | advanceFault hw hgt => exact .inr (.inr (.inr ⟨_, hw, hgt, rfl⟩))
  | advanced hw _ => exact .inl hw.pc_run.2
  | jmp _ | jeqTaken _ _ | jneTaken _ _ => exact .inl rfl

/-- Executed from Running, only HLT halts. -/
theorem eq_hlt_of_exec_halted (hrun : s.run = .running) (h : exec i s = .next t) (ht : t.run = .halted) : i = .hlt := by
  rcases exec_run_cases h with he | ⟨hi, _⟩ | ⟨_, _, _, rfl⟩ | ⟨_, _, _, rfl⟩
  · rw [he, hrun] at ht
    cases ht
  · exact hi
  · cases ht
  · cases ht

theorem exec_hlt_run (h : exec .hlt s = .next t) : t.run = .halted := by
  rcases exec_hlt_cases s with ⟨_, h'⟩ | ⟨_, h'⟩ <;> rw [h'] at h <;> cases h <;> rfl

/-- An instruction that faults from Running has written nothing, or has made its writes and goes past the top of memory. -/
theorem exec_faulted_cases (hrun : s.run = .running) (h : exec i s = .next t) (ht : t.run = .faulted kind info) :
    (FaultsBeforeWrites i kind ∧ t = s.setRun (.faulted kind info)) ∨
    (kind = .outOfBounds ∧ info = s.pc.toNat + i.width ∧ 255 < s.pc.toNat + i.width ∧
      ∃ u, Writes i s u ∧ t = u.setRun (.faulted kind info)) := by
  rcases exec_run_cases h with he | ⟨_, he⟩ | ⟨_, _, hf, rfl⟩ | ⟨u, hw, hgt, rfl⟩
  · rw [he, hrun] at ht
    cases ht
  · rw [he] at ht
    cases ht
  · cases ht
    exact .inl ⟨hf, rfl⟩
  · cases ht
    exact .inr ⟨rfl, rfl, hgt, u, hw, rfl⟩

/-- A step that faults has written nothing, or has made the writes of an instruction that ends at address 255 (R134, R155). -/
theorem step_faulted_cases (h : step s = .next t) (ht : t.run = .faulted kind info) :
    t = s.setRun (.faulted kind info) ∨
    (kind = .outOfBounds ∧ info = 256 ∧ ∃ i rest u, decode (fetchBytes s) = .ok i rest ∧ s.pc.toNat + i.width = 256 ∧
      Writes i s u ∧ t = u.setRun (.faulted kind info)) := by
  obtain ⟨hrun, ⟨i, rest, hd, hx⟩ | ⟨op, _, rfl⟩ | ⟨k, _, rfl⟩⟩ := step_cases h
  · rcases exec_faulted_cases hrun hx ht with ⟨_, he⟩ | ⟨hkind, hinfo, hgt, u, hw, he⟩
    · exact .inl he
    · have hend : s.pc.toNat + i.width = 256 := by
        have := width_le_of_decode hd
        omega
      exact .inr ⟨hkind, by omega, i, rest, u, hd, hend, hw, he⟩
  · cases ht
    exact .inl rfl
  · cases ht
    exact .inl rfl

end Sys2Proof.Machine
end

section
/-! PROOFS. Halting and faulting (spec/60_exceptions.md). -/

namespace Sys2Proof.Machine

/-- Settles O36: of the instructions only HLT halts, and a fetch fault does not; with HLT's byte at pc, O11 says that HLT is
what the step executes. -/
theorem haltOnlyByHlt : Obligations.HaltOnlyByHlt := by
  intro s t h
  obtain ⟨hrun, hcases⟩ := step_cases h
  constructor
  · intro ht
    obtain ⟨i, rest, hd, hx⟩ | ⟨op, _, rfl⟩ | ⟨k, _, rfl⟩ := hcases
    · obtain rfl := eq_hlt_of_exec_halted hrun hx ht
      exact (Option.some.inj (opcode_of_decode hd)).symm
    · cases ht
    · cases ht
  · intro hop
    obtain ⟨_, _, hstep⟩ := hltHalts s
    exact exec_hlt_run ((hstep hrun hop).symm.trans h)

/-- Settles O37: neither fault entry nor the writes before an advance touch pc, and the record in `run` is what the status port
shows and what stops the next step. -/
theorem faultEntryKeepsPcAndEndsTheRun : Obligations.FaultEntryKeepsPcAndEndsTheRun := by
  refine ⟨fun s kind info => raise_eq kind info s, fun s t kind info h ht => ?_⟩
  have hpc : t.pc = s.pc := by
    obtain rfl | ⟨_, _, i, rest, u, _, _, hw, rfl⟩ := step_faulted_cases h ht
    · rfl
    · exact hw.pc_run.1
  exact ⟨hpc, congrArg RunState.errorCode ht, congrArg RunState.errorInfo ht, step_faulted ht⟩

/-- Settles O38, by the two ways a step can fault. -/
theorem faultsBeforeTheWritesArePrecise : Obligations.FaultsBeforeTheWritesArePrecise := by
  intro s t kind info h ht
  obtain he | ⟨hkind, hinfo, i, rest, _, hd, hend, _, _⟩ := step_faulted_cases h ht
  · exact .inl he
  · exact .inr ⟨hkind, hinfo, i, rest, hd, hend⟩

/-- Settles O39: a fault before the writes is one of R131's columns, and an advance fault is OutOfBounds of an instruction that
advances. -/
theorem faultKindsByInstruction : Obligations.FaultKindsByInstruction := by
  intro i s t kind info hrun h ht
  rcases exec_faulted_cases hrun h ht with ⟨hf, _⟩ | ⟨hkind, _, _, u, hw, _⟩
  · cases hf with
    | badRegister hi => exact .inl ⟨rfl, hi⟩
    | stackFull a => exact .inr (.inl ⟨rfl, nofun, nofun⟩)
    | stackUnderflow a => exact .inr (.inr (.inl ⟨rfl, a, rfl⟩))
    | divideByZero a b => exact .inr (.inr (.inr ⟨rfl, a, b, rfl⟩))
  · exact .inr (.inl ⟨hkind, hw.ne_hlt_jmp⟩)

/-- Settles O51: the table of R130 row by row. -/
theorem errorCodesAsTabled : Obligations.ErrorCodesAsTabled :=
  ⟨rfl, rfl, fun _ => ⟨rfl, rfl, rfl, rfl, rfl, rfl, rfl, fun _ => rfl⟩⟩

end Sys2Proof.Machine
end

section
/-! SUPPORT. Every operation an instruction is made of answers a next state, when what follows it does: a fault is entered as
one (R133), and nothing is refused. -/

namespace Sys2Proof.Machine

/-- The result is a next state, neither a fault of the host interface nor a refusal. -/
def AnswersNext (x : Result) : Prop := ∃ t, x = .next t

variable {s : State}

theorem answersNext_next (t : State) : AnswersNext (.next t) := ⟨t, rfl⟩

theorem raise_answersNext (kind : ErrorKind) (info : Int) (s : State) : AnswersNext (raise kind info s) :=
  answersNext_next _

theorem advance_answersNext (w : Nat) (s : State) : AnswersNext (advance w s) := by
  rcases advance_cases w s with ⟨_, h⟩ | ⟨_, h⟩ <;> exact ⟨_, h⟩

theorem jumpTo_answersNext (r : RegIx) (s : State) : AnswersNext (jumpTo r s) := ⟨_, jumpTo_eq r s⟩

theorem checkReg_answersNext (b : Byte) {k : RegIx → Result} (hk : ∀ r, AnswersNext (k r)) :
    AnswersNext (checkReg b s k) := by
  rcases checkReg_cases b s k with ⟨r, _, h⟩ | ⟨_, h⟩ <;> rw [h]
  · exact hk r
  · exact raise_answersNext _ _ s

theorem memRead_answersNext (a : Int) {k : Byte → Result} (hk : ∀ v, AnswersNext (k v)) : AnswersNext (memRead a s k) := by
  rcases memRead_cases a s k with ⟨_, h⟩ | ⟨_, h⟩ <;> rw [h]
  · exact hk _
  · exact raise_answersNext _ _ s

theorem memWrite_answersNext (a : Int) (v : Byte) {k : State → Result} (hk : ∀ t, AnswersNext (k t)) :
    AnswersNext (memWrite a v s k) := by
  rcases memWrite_cases a v s k with ⟨_, h⟩ | ⟨_, h⟩ <;> rw [h]
  · exact hk _
  · exact raise_answersNext _ _ s

theorem applyAlu_answersNext (ra rb : RegIx) (s : State) (x : AluOutcome) : AnswersNext (applyAlu ra rb s x) := by
  cases x with
  | value v => exact advance_answersNext 3 _
  | flags f => exact advance_answersNext 3 _
  | divideByZero | unsupportedOperation op => exact raise_answersNext _ _ s

theorem runAlu_answersNext (op a b : Byte) (s : State) : AnswersNext (runAlu op a b s) :=
  checkReg_answersNext a fun ra => checkReg_answersNext b fun rb => applyAlu_answersNext ra rb s _

/-- Every instruction, from every state, answers a next state. -/
theorem exec_answersNext (i : Instr) (s : State) : AnswersNext (exec i s) := by
  cases i with
  | hlt => rcases exec_hlt_cases s with ⟨_, h⟩ | ⟨_, h⟩ <;> exact ⟨_, h⟩
  | ldi a imm =>
    rw [exec_ldi]
    exact checkReg_answersNext a fun _ => advance_answersNext 3 _
  | prn a =>
    rw [exec_prn]
    exact checkReg_answersNext a fun _ => advance_answersNext 2 _
  | mul a b | and a b | or a b | xor a b | shl a b | shr a b | mod a b | not a b | cmp a b =>
    exact runAlu_answersNext _ a b s
  | push a =>
    rw [exec_push]
    exact checkReg_answersNext a fun _ => memWrite_answersNext _ _ fun _ => advance_answersNext 2 _
  | pop a =>
    rw [exec_pop]
    refine checkReg_answersNext a fun _ => ?_
    split
    · exact raise_answersNext _ _ s
    · exact memRead_answersNext _ fun _ => advance_answersNext 2 _
  | jmp a => exact checkReg_answersNext a fun r => jumpTo_answersNext r s
  | jeq a =>
    rw [exec_jeq]
    refine checkReg_answersNext a fun r => ?_
    split
    · exact jumpTo_answersNext r s
    · exact advance_answersNext 2 s
  | jne a =>
    rw [exec_jne]
    refine checkReg_answersNext a fun r => ?_
    split
    · exact advance_answersNext 2 s
    · exact jumpTo_answersNext r s

/-- So does whatever the decoder answers: an instruction, an unsupported opcode, a missing operand byte. -/
theorem execDecoded_answersNext (s : State) (d : DecodeResult) : AnswersNext (execDecoded s d) := by
  cases d with
  | ok i rest => exact exec_answersNext i s
  | unsupportedOpcode op => exact raise_answersNext _ _ s
  | missingByte k => exact raise_answersNext _ _ s

end Sys2Proof.Machine
end

section
/-! SUPPORT. What a launch and a step leave: the memory above a stored run of bytes, the launch of an image that fits (R152),
and the flags (R160). -/

namespace Sys2Proof.Machine

/-- Storing a run of bytes leaves every address above its last one alone. -/
theorem Memory.read_storeFrom_above (m : Memory) {a b : Nat} {bytes : List Byte} (h : a + bytes.length ≤ b) :
    (m.storeFrom a bytes).read b = m.read b := by
  induction bytes generalizing m a with
  | nil => rfl
  | cons v bytes ih =>
    rw [List.length_cons] at h
    rw [Memory.storeFrom, ih _ (by omega)]
    split
    · exact Memory.read_write_other m v (by omega)
    · rfl

theorem load_of_length_le {image : List Byte} (h : image.length ≤ 256) : load image = .launched (launchState image) :=
  if_pos h

/-- The image stands from address 0 (R50). -/
theorem launchState_read_image {image : List Byte} (hlen : image.length ≤ 256) {a : Nat} (ha : a < image.length) :
    (launchState image).mem.read a = image[a] := by
  have hread := Memory.read_storeFrom State.reset.mem (a := 0) ha (by omega)
  rw [List.getElem?_eq_getElem ha, Nat.zero_add] at hread
  exact (Option.some.inj hread).symm

/-- Above the image every address reads 0 (R43). -/
theorem launchState_read_above {image : List Byte} {a : Nat} (ha : image.length ≤ a) :
    (launchState image).mem.read a = 0 :=
  Memory.read_storeFrom_above State.reset.mem (by omega)

/-- A step keeps the flags, or it executes CMP (R25). -/
theorem step_flags_cases {s t : State} (h : step s = .next t) :
    t.flags = s.flags ∨ s.mem.read s.pc.toNat = Opcode.cmp := by
  obtain ⟨_, ⟨i, rest, hd, hx⟩ | ⟨op, _, rfl⟩ | ⟨k, _, rfl⟩⟩ := step_cases h
  · rcases exec_flags_cases hx with he | ⟨a, b, _, _, rfl, _⟩
    · exact .inl he
    · exact .inr (Option.some.inj (opcode_of_decode hd)).symm
  · exact .inl rfl
  · exact .inl rfl

end Sys2Proof.Machine
end

section
/-! PROOFS. Reset, launch, and the step (spec/70_reset_and_hazards.md). -/

namespace Sys2Proof.Machine

/-- Settles O7: a Running step executes what the decoder answers, and that is a next state. -/
theorem runningCoreAlwaysSteps : Obligations.RunningCoreAlwaysSteps := by
  intro s hrun
  rw [step_running hrun]
  exact execDecoded_answersNext s _

/-- Settles O33: only CMP writes the flags, a launch has those of reset, and with E = 0 JEQ is its advance and JNE its jump. -/
theorem flagsChangeOnlyByCmp : Obligations.FlagsChangeOnlyByCmp := by
  refine ⟨fun s t h hop => (step_flags_cases h).resolve_right hop, fun image s hload => ?_, fun s ra he hpc => ⟨?_, ?_⟩⟩
  · rw [launchState_of_load hload]
    rfl
  · exact (exec_jeq_notTaken ra he).trans (advance_of_le hpc)
  · exact exec_jne_taken ra he

/-- Settles O47: the launch state is reset but for memory, which reads as the image and 0 above it. -/
theorem launchHoldsTheImage : Obligations.LaunchHoldsTheImage := by
  refine ⟨fun image hlen => ?_, rfl⟩
  exact ⟨launchState image, load_of_length_le hlen, rfl, rfl, fun _ ha => launchState_read_image hlen ha,
    fun _ ha => launchState_read_above ha⟩

/-- Settles O1: the fields of the reset state. -/
theorem resetGivesSpecValues : Obligations.ResetGivesSpecValues :=
  ⟨State.reset_reg, State.reset_pc, State.reset_sp, rfl, rfl, rfl, State.reset_run, rfl⟩

/-- Settles O6: an instruction's bytes at pc are what the decoder reads, and a decoded instruction is executed. -/
theorem stepRunsTheFetchedInstruction : Obligations.StepRunsTheFetchedInstruction := by
  refine fun s i hrun => ⟨step_of_instructionAtPc hrun, fun rest hd => ?_⟩
  rw [step_running hrun, hd, execDecoded_ok]

/-- Settles O8, by the run state. -/
theorem haltedAndFaultedTakeNoStep : Obligations.HaltedAndFaultedTakeNoStep :=
  fun _ => ⟨step_halted, fun _ _ => step_faulted⟩

/-- Settles O9: the reset input gives the reset state over the old memory, which is Running and so steps. -/
theorem resetInputRestartsTheCore : Obligations.ResetInputRestartsTheCore :=
  fun s => ⟨rfl, State.reset_reg, State.reset_pc, State.reset_sp, State.reset_flags, State.reset_run, State.reset_out,
    runningCoreAlwaysSteps (resetInput s) State.reset_run⟩

end Sys2Proof.Machine
end
